-- ==== Sys2Proof/Word.lean ====
section
/-! DEFINITION. The word types of the engine: bytes, 32-bit words and op words. -/

namespace Sys2Proof

/-- A byte, bit 7 most significant (00_scope.md R11). -/
abbrev Byte := BitVec 8

/-- A word: an unsigned 32-bit integer, bit 31 most significant (00_scope.md R11).
Its addition is `BitVec` addition, which is addition modulo 2^32 with no carry kept (R12). -/
abbrev Word := BitVec 32

/-- The 8-bit number that names a micro-operation (30_encoding.md R63). -/
abbrev OpWord := BitVec 8

end Sys2Proof
end

