-- ==== Sys2Proof/Config.lean ====
section
/-! DEFINITION. The fixed sizes of the engine (00_scope.md R7) that formulas use by name, and the
free values: constants without a body, of which nothing can be proved.

The other sizes of R7 stand in the types: WORD_BITS in `Word`, STATE_WORDS, SCHED_WORDS,
BLOCK_BYTES and DIGEST_BYTES in the lengths of the vectors of `State`, ROUNDS and NUM_K in the
index type `Fin 64` of a round. -/

namespace Sys2Proof.Config

/-- BLOCK_BYTES: bytes in one block. -/
abbrev blockBytes : Nat := 64

/-- LEN_FIELD_BYTES: bytes of the length field that ends the padded message. -/
abbrev lenFieldBytes : Nat := 8

/-- PAD_MARK: the byte that follows the message. -/
abbrev padMark : Byte := 0x80

/-- MAX_LEN_BYTES: the largest message length in bytes (R7; 90_conflicts.md C2). -/
abbrev maxLenBytes : Nat := 2 ^ 61 - 1

/-- What working variable number `i` holds after RESET.
The spec gives it no value (10_state.md R32, R34), so it is a free value (assumption 1). -/
opaque resetVar : Nat → Word

/-- What `W[j]` holds after RESET: a free value (10_state.md R32, R34; assumption 1). -/
opaque resetSchedule : Nat → Word

/-- What `B[q]` holds after RESET: a free value (10_state.md R32, R34; assumption 1). -/
opaque resetBlock : Nat → Byte

/-- What `DG[q]` holds after RESET: a free value (10_state.md R32, R34; assumption 1). -/
opaque resetDigest : Nat → Byte

/-- The byte at position `p` of the padding of a message of `L` bytes where
40_padding_controller.md defines none: past the padded message, or in the length field of a message
too long for it (R88, R89). No launched call asks for one; it is a free value, the same for PADBLK
(assumption 4) and for the functions `pad` and `block` (assumption 16). -/
opaque undefinedPadding (L p : Nat) : Byte

end Sys2Proof.Config
end

