-- ==== Sys2Proof/Syntax.lean ====
section
/-! DEFINITION. The micro-operations of the engine: one constructor for each mnemonic of
spec/opcode_table.json (30_encoding.md R65). -/

namespace Sys2Proof

/-- A micro-operation. The operand of the indexed ones is the field `idx` of the op word, the
unsigned value of its bits 5:0 (30_encoding.md R66). -/
inductive Instr where
  /-- INIT: start a call from the fixed initial values (43_hash_accumulator.md R120). -/
  | init
  /-- PADBLK: deliver block `blk` of the padded message (40_padding_controller.md R87). -/
  | padblk
  /-- LDV: load the working variables from the hash state (42_compress_engine.md R109). -/
  | ldv
  /-- ACC: add the working variables into the hash state (43_hash_accumulator.md R121). -/
  | acc
  /-- FIN: produce the digest (43_hash_accumulator.md R122). -/
  | fin
  /-- LDW j: load schedule word j from the block buffer (41_message_scheduler.md R97). -/
  | ldw (j : Fin 64)
  /-- EXW j: extend the schedule by word j (41_message_scheduler.md R98). -/
  | exw (j : Fin 64)
  /-- RND j: one compression round (42_compress_engine.md R110). -/
  | rnd (j : Fin 64)
deriving DecidableEq, Repr

end Sys2Proof
end

