-- ==== Sys2Proof/WellFormed.lean ====
section
/-! DEFINITION. Which terms of `Instr` are micro-operations: the index ranges of
30_encoding.md R64. -/

namespace Sys2Proof

/-- The index of an LDW is 0 to 15, that of an EXW is 16 to 63, that of an RND is 0 to 63
(30_encoding.md R64); the other operations have no operand. -/
def Instr.wellFormed : Instr → Bool
  | .init => true
  | .padblk => true
  | .ldv => true
  | .acc => true
  | .fin => true
  | .ldw j => decide (j.val < 16)
  | .exw j => decide (16 ≤ j.val)
  | .rnd _ => true

end Sys2Proof
end

