-- ==== Sys2Proof/Decode.lean ====
section
/-! DEFINITION. The decoder and the encoder of op words (30_encoding.md R63 to R68, R73).
The decoder is total and rejects each class of reserved word by name; the encoder is written from
the same opcode map. -/

namespace Sys2Proof

/-- Why an op word names no operation (30_encoding.md R67). -/
inductive DecodeError where
  /-- Class 0 with sub-opcode 5 to 63: the words 0x05 to 0x3F. -/
  | reservedControl (idx : Fin 64)
  /-- Class 1 with index 16 to 63: the words 0x50 to 0x7F. -/
  | reservedLoad (idx : Fin 64)
  /-- Class 2 with index 0 to 15: the words 0x80 to 0x8F. -/
  | reservedExpand (idx : Fin 64)
deriving DecidableEq, Repr

/-- The verdict of the decoder: an operation, or R73's `invalid` with the reason. -/
inductive Decoded where
  | op (i : Instr)
  | invalid (why : DecodeError)
deriving DecidableEq, Repr

/-- Field `cls`, bits 7:6 of an op word (30_encoding.md R63). -/
def OpWord.cls (w : OpWord) : BitVec 2 := w.extractLsb' 6 2

/-- Field `idx`, bits 5:0 of an op word, as an unsigned number (30_encoding.md R63, R66). -/
def OpWord.idx (w : OpWord) : Fin 64 := (w.extractLsb' 0 6).toFin

/-- Class 0: the control operations, by sub-opcode (30_encoding.md R64, R73). -/
def decodeControl (idx : Fin 64) : Decoded :=
  if idx.val = 0 then .op .init
  else if idx.val = 1 then .op .padblk
  else if idx.val = 2 then .op .ldv
  else if idx.val = 3 then .op .acc
  else if idx.val = 4 then .op .fin
  else .invalid (.reservedControl idx)

/-- Decoding, total on 8-bit words (30_encoding.md R73). -/
def decode (w : OpWord) : Decoded :=
  if w.cls = 0 then decodeControl w.idx
  else if w.cls = 1 then
    if w.idx.val ≤ 15 then .op (.ldw w.idx) else .invalid (.reservedLoad w.idx)
  else if w.cls = 2 then
    if 16 ≤ w.idx.val then .op (.exw w.idx) else .invalid (.reservedExpand w.idx)
  else .op (.rnd w.idx)

/-- An op word from its two fields (30_encoding.md R63). -/
def opWordOf (cls : BitVec 2) (idx : Fin 64) : OpWord := cls ++ BitVec.ofFin (w := 6) idx

/-- The class of an operation (30_encoding.md R64). -/
def Instr.cls : Instr → BitVec 2
  | .init => 0
  | .padblk => 0
  | .ldv => 0
  | .acc => 0
  | .fin => 0
  | .ldw _ => 1
  | .exw _ => 2
  | .rnd _ => 3

/-- The field `idx` of an operation: its sub-opcode or its index (30_encoding.md R64, R65). -/
def Instr.idx : Instr → Fin 64
  | .init => 0
  | .padblk => 1
  | .ldv => 2
  | .acc => 3
  | .fin => 4
  | .ldw j => j
  | .exw j => j
  | .rnd j => j

/-- The op word of an operation (30_encoding.md R65). -/
def encode (i : Instr) : OpWord := opWordOf i.cls i.idx

/-- The operation the decoder reads from a word numbered as spec/opcode_table.json numbers it.
There is one op-word length, 8 bits (30_encoding.md R68); another length, or a number that does
not fit, is no op word (assumption 6). -/
def decodeTableWord (nbits w : Nat) : Option Instr :=
  if nbits = 8 ∧ w < 2 ^ 8 then
    match decode (BitVec.ofNat 8 w) with
    | .op i => some i
    | .invalid _ => none
  else none

/-- The trace line of an operation: mnemonic in capitals, index in decimal after one space
(30_encoding.md R69). -/
def Instr.trace : Instr → String
  | .init => "INIT"
  | .padblk => "PADBLK"
  | .ldv => "LDV"
  | .acc => "ACC"
  | .fin => "FIN"
  | .ldw j => "LDW " ++ toString j.val
  | .exw j => "EXW " ++ toString j.val
  | .rnd j => "RND " ++ toString j.val

/-- The operations of one BLOCK in the spec's order (30_encoding.md R71). -/
def blockOps : List Instr :=
  [.padblk]
    ++ (List.range 16).map (fun j => .ldw (Fin.ofNat 64 j))
    ++ (List.range 48).map (fun k => .exw (Fin.ofNat 64 (16 + k)))
    ++ [.ldv]
    ++ (List.range 64).map (fun j => .rnd (Fin.ofNat 64 j))
    ++ [.acc]

/-- The operations of a call of `N` blocks: INIT, N times BLOCK, FIN (30_encoding.md R70). -/
def hashOps (N : Nat) : List Instr :=
  [.init] ++ (List.replicate N blockOps).flatten ++ [.fin]

end Sys2Proof
end

