-- ==== Sys2Proof/Machine/State.lean ====
section
/-! DEFINITION. The state of one engine (10_state.md R20), the call's parameters and the host's
inputs beside it, the reasons a step can stop, and the state after RESET. -/

namespace Sys2Proof.Machine

/-- The phase flag: the two states of the engine (10_state.md R26). -/
inductive Phase where
  /-- ACCEPT: "accepting more blocks". -/
  | accept
  /-- DONE: "terminal/digest produced". -/
  | done
deriving DecidableEq, Repr

/-- The sequencer position (10_state.md R27). The index of a position is kept in its 6-bit range;
`Pos.legal` says which indices R27 allows. -/
inductive Pos where
  | wait
  | atInit
  | atPad
  | atLdw (j : Fin 64)
  | atExw (j : Fin 64)
  | atLdv
  | atRnd (j : Fin 64)
  | atAcc
  | atFin
deriving DecidableEq, Repr

/-- The positions of 10_state.md R27: LDW indices 0 to 15, EXW indices 16 to 63. -/
def Pos.legal : Pos → Bool
  | .wait => true
  | .atInit => true
  | .atPad => true
  | .atLdw j => decide (j.val < 16)
  | .atExw j => decide (16 ≤ j.val)
  | .atLdv => true
  | .atRnd _ => true
  | .atAcc => true
  | .atFin => true

/-- The working variables a to h (10_state.md R22). -/
structure Vars where
  a : Word
  b : Word
  c : Word
  d : Word
  e : Word
  f : Word
  g : Word
  h : Word
deriving DecidableEq, Repr

/-- The message space MSG (20_memory.md R41) as (address, byte) pairs in canonical form:
addresses strictly rising, no entry equal to what an unlisted address reads as. -/
abbrev Memory := List Host.Cell

/-- What the host drives during one step (30_encoding.md R72): RESET or not, and at most one
LAUNCH with its message. Reads of `done` and of the digest change nothing and are no part of it. -/
structure HostInput where
  reset : Bool
  launch : Option (List Byte)
deriving DecidableEq, Repr

/-- The state. `H` to `blk` are the pieces of 10_state.md R20; `msg` and `msgLen` hold the
parameters M and L of the call in progress (R30), from which N follows; `hostInputs` is what the
host does at the coming steps, one entry a step, nothing after the last (assumption 2). -/
structure State where
  /-- Hash state H[0..7] (R21). -/
  H : Vector Word 8
  /-- Working variables a..h (R22). -/
  v : Vars
  /-- Message schedule W[0..63] (R23). -/
  W : Vector Word 64
  /-- Block buffer B[0..63] (R24). -/
  B : Vector Byte 64
  /-- Digest register DG[0..31] (R25). -/
  DG : Vector Byte 32
  /-- Phase flag (R26). -/
  phase : Phase
  /-- Sequencer position (R27). -/
  pos : Pos
  /-- Block index (R27). -/
  blk : Nat
  /-- The message M of the call (R30, R41). -/
  msg : Memory
  /-- The length L of the message in bytes (R30). -/
  msgLen : Nat
  /-- The host's inputs, the next step's first. -/
  hostInputs : List HostInput
deriving DecidableEq, Repr

/-- Why the machine stops with a fault. The hardware raises none (60_exceptions.md R140): both
exist only in the model. -/
inductive Fault where
  /-- Raised by a meaning given an index outside its range, and by a step at a position whose op
  word is reserved (30_encoding.md R67; 93_implementation_defined.md U7). Safe: no position of
  10_state.md R27 and no word of the decoder leads to it. -/
  | reservedOpWord
  /-- Raised by `Safety.guardedStep` and `Safety.guardedReadDigest` only, never by `step`: an operation,
  or the host's read of the digest, reads an element that nothing has written since RESET
  (60_exceptions.md R154; assumption 11). Safe: it is never reached. -/
  | readOfUnwrittenState
deriving DecidableEq, Repr

/-- Why a move is refused. A refusal is no transition: the state stays as it was. -/
inductive Refusal where
  /-- Raised by an arm of `exec` that has no meaning yet. Safe: it proves nothing. -/
  | notModelled (mnemonic : String)
  /-- Raised by `step` at WAIT when the host does nothing any more: the engine has no step there
  (43_hash_accumulator.md R134). Safe: it is what the spec says. -/
  | noEnabledStep
  /-- Raised by LAUNCH while a call is running: the model has no such move
  (60_exceptions.md R153; 93_implementation_defined.md U3). Unsafe for a host that does it: the
  model is silent while a circuit does something. -/
  | launchWhileRunning
  /-- Raised by LAUNCH with a message of 2^61 bytes or more (60_exceptions.md R141). Safe. -/
  | lengthOutOfRange
  /-- Raised by a read of the digest while `done = 0` (43_hash_accumulator.md R131). Safe. -/
  | digestNotReady
deriving DecidableEq, Repr

/-- The engine right after RESET, with no call and a silent host (10_state.md R34;
70_reset_and_hazards.md R160). The elements the spec leaves without value hold free values
(assumption 1); the forgotten call parameters are those of the empty message (assumption 3). -/
def State.reset : State where
  H := initialHash
  v :=
    { a := Config.resetVar 0, b := Config.resetVar 1, c := Config.resetVar 2,
      d := Config.resetVar 3, e := Config.resetVar 4, f := Config.resetVar 5,
      g := Config.resetVar 6, h := Config.resetVar 7 }
  W := Vector.ofFn fun j => Config.resetSchedule j.val
  B := Vector.ofFn fun q => Config.resetBlock q.val
  DG := Vector.ofFn fun q => Config.resetDigest q.val
  phase := .accept
  pos := .wait
  blk := 0
  msg := []
  msgLen := 0
  hostInputs := []

end Sys2Proof.Machine
end

