-- ==== Sys2Proof/Machine/Memory.lean ====
section
/-! DEFINITION. The message space MSG: its canonical form, reading a byte, and the contents a
launched message gives it (20_memory.md R41). The engine never writes it (R48). -/

namespace Sys2Proof.Machine

/-- What an unlisted address below L reads as. Every byte of a launched message is delivered by
the host; this only says which byte value the pairs leave out (assumption 5). -/
def Memory.unlisted : Byte := 0x00

/-- The byte at address `p` of the pairs. -/
def Memory.read : Memory → Nat → Byte
  | [], _ => unlisted
  | (a, b) :: m, p => if a = p then b else Memory.read m p

/-- Every address is at least `lo`, addresses rise strictly, and no byte is the unlisted one. -/
def Memory.canonicalFrom (lo : Nat) : Memory → Bool
  | [] => true
  | (a, b) :: m => decide (lo ≤ a) && decide (b ≠ unlisted) && Memory.canonicalFrom (a + 1) m

/-- The canonical form of a memory. -/
def Memory.wf (m : Memory) : Bool := m.canonicalFrom 0

/-- Every listed address is below `L`: addresses `p >= L` do not exist (20_memory.md R41). -/
def Memory.within (m : Memory) (L : Nat) : Bool := m.all fun c => decide (c.1 < L)

/-- The pairs of a byte sequence whose first byte stands at address `p`. -/
def Memory.ofBytesFrom (p : Nat) : List Byte → Memory
  | [] => []
  | b :: bs =>
    if b = unlisted then Memory.ofBytesFrom (p + 1) bs
    else (p, b) :: Memory.ofBytesFrom (p + 1) bs

/-- MSG for a launched message: address `p` holds byte `p` of it (20_memory.md R41). -/
def Memory.ofBytes (M : List Byte) : Memory := Memory.ofBytesFrom 0 M

/-- `MemRead(p, 1)` (20_memory.md R41): the byte at address `p`; addresses `p >= L` do not exist. -/
def State.memRead (s : State) (p : Nat) : Option Byte :=
  if p < s.msgLen then some (Memory.read s.msg p) else none

/-- The message M of the call as a byte sequence (10_state.md R30). -/
def State.message (s : State) : List Byte := (List.range s.msgLen).map (Memory.read s.msg)

end Sys2Proof.Machine
end

