-- ==== Sys2Proof/Machine/WordFns.lean ====
section
/-! DEFINITION. The word functions of the scheduler and of the compress engine
(00_scope.md R13; 41_message_scheduler.md R95, R96; 42_compress_engine.md R105 to R108). -/

namespace Sys2Proof.Machine

/-- `rotr(x, n)` for 1 <= n <= 31 (00_scope.md R13). -/
def rotr (x : Word) (n : Nat) : Word := (x >>> n) ||| (x <<< (32 - n))

/-- Three rotations of one word, combined by exclusive or: the form of both big sigmas. -/
def mixRotations (x : Word) (n1 n2 n3 : Nat) : Word := rotr x n1 ^^^ rotr x n2 ^^^ rotr x n3

/-- Two rotations and a logical right shift of one word, combined by exclusive or: the form of both
small sigmas. -/
def mixRotationsShift (x : Word) (n1 n2 shift : Nat) : Word :=
  rotr x n1 ^^^ rotr x n2 ^^^ (x >>> shift)

/-- σ0 (41_message_scheduler.md R95). -/
def smallSigma0 (x : Word) : Word := mixRotationsShift x 7 18 3

/-- σ1 (41_message_scheduler.md R96). -/
def smallSigma1 (x : Word) : Word := mixRotationsShift x 17 19 10

/-- Σ0 (42_compress_engine.md R105). -/
def bigSigma0 (a : Word) : Word := mixRotations a 2 13 22

/-- Σ1 (42_compress_engine.md R106). -/
def bigSigma1 (e : Word) : Word := mixRotations e 6 11 25

/-- Ch (42_compress_engine.md R107). -/
def ch (e f g : Word) : Word := (e &&& f) ^^^ (~~~e &&& g)

/-- Maj (42_compress_engine.md R108). -/
def maj (a b c : Word) : Word := (a &&& b) ^^^ (a &&& c) ^^^ (b &&& c)

end Sys2Proof.Machine
end

