-- ==== Sys2Proof/Machine/Operands.lean ====
section
/-! DEFINITION. What an operation's operands are: the byte packing (00_scope.md R14), the words an
index selects from B and W (41_message_scheduler.md R97, R98), and the bytes of the padded message
that the block index selects (40_padding_controller.md R80 to R88). -/

namespace Sys2Proof.Machine

/-- `be32`: four bytes to a word, first byte most significant (00_scope.md R14). -/
def be32 (b0 b1 b2 b3 : Byte) : Word := (b0 ++ b1 ++ b2 ++ b3 : BitVec (8 + 8 + 8 + 8))

/-- `bytes32`: a word to four bytes, most significant first (00_scope.md R14). -/
def bytes32 (x : Word) : Vector Byte 4 :=
  #v[x.extractLsb' 24 8, x.extractLsb' 16 8, x.extractLsb' 8 8, x.extractLsb' 0 8]

/-- `bytes64`: a number below 2^64 to eight bytes, most significant first (00_scope.md R14).
It is used for such numbers only: `lengthField` guards it. -/
def bytes64 (n : Nat) : List Byte := (List.range 8).map fun k => BitVec.ofNat 8 (n >>> (8 * (7 - k)))

/-- Schedule word `j` as LDW takes it from a block (41_message_scheduler.md R97). -/
def loadWord (B : Vector Byte 64) (j : Nat) (h : j < 16) : Word :=
  be32 B[4 * j] B[4 * j + 1] B[4 * j + 2] B[4 * j + 3]

/-- Schedule word `j` as EXW derives it from earlier words (41_message_scheduler.md R98). -/
def expandWord (W : Vector Word 64) (j : Nat) (_lo : 16 ≤ j) (hi : j < 64) : Word :=
  W[j - 16] + smallSigma0 W[j - 15] + W[j - 7] + smallSigma1 W[j - 2]

/-- The digest bytes of a hash state, big-endian words in order (30_encoding.md R62). -/
def digestBytes (H : Vector Word 8) : Vector Byte 32 :=
  Vector.ofFn fun q => (bytes32 H[q.val / 4])[q.val % 4]

/-- The digest as one 256-bit vector, `DG[0]` its top byte (20_memory.md R53). -/
def digestVector (DG : Vector Byte 32) : BitVec 256 :=
  BitVec.ofNat 256 (DG.toList.foldl (fun acc b => acc * 256 + b.toNat) 0)

/-- The number k of zero bytes in the padding of a message of `L` bytes
(40_padding_controller.md R81). -/
def padZeros (L : Nat) : Nat := (64 - (L + 9) % 64) % 64

/-- The block count N of a message of `L` bytes (40_padding_controller.md R83). -/
def blockCount (L : Nat) : Nat := (L + 8) / 64 + 1

/-- The block count N of the call in progress (10_state.md R30). -/
def State.blocks (s : State) : Nat := blockCount s.msgLen

/-- Byte `p` of the padded message of the call, without building it (40_padding_controller.md R88).
Where R88 defines no byte (past the padded message, or in the length field of a message of 2^61
bytes or more) it is a free value (DESIGN CHOICE, assumption 4). -/
def State.padByte (s : State) (p : Nat) : Byte :=
  match s.memRead p with
  | some b => b
  | none =>
    if p = s.msgLen then Config.padMark
    else if p < Config.blockBytes * s.blocks - Config.lenFieldBytes then 0x00
    else if p < Config.blockBytes * s.blocks ∧ s.msgLen ≤ Config.maxLenBytes then
      BitVec.ofNat 8 ((8 * s.msgLen) >>> (8 * (Config.blockBytes * s.blocks - 1 - p)))
    else Config.undefinedPadding s.msgLen p

/-- Block `i` of the padded message of the call (40_padding_controller.md R86, R87). -/
def State.padBlock (s : State) (i : Nat) : Vector Byte 64 :=
  Vector.ofFn fun q => s.padByte (Config.blockBytes * i + q.val)

end Sys2Proof.Machine
end

