-- ==== Sys2Proof/Machine/Flags.lean ====
section
/-! DEFINITION. The engine's one flag and what the host sees of it (10_state.md R26;
43_hash_accumulator.md R131, R133). There is no carry, overflow, zero or sign flag. -/

namespace Sys2Proof.Machine

/-- Write the phase flag. -/
def State.setPhase (s : State) (p : Phase) : State := { s with phase := p }

/-- The output `done`: 1 exactly when the phase is DONE (10_state.md R26). -/
def State.done (s : State) : Bool := decide (s.phase = .done)

/-- The host's read of the digest: the 32 bytes of DG while `done = 1`, refused otherwise
(43_hash_accumulator.md R131, R133). It changes nothing. -/
def State.readDigest (s : State) : Except Refusal (Vector Byte 32) :=
  if s.done then .ok s.DG else .error .digestNotReady

end Sys2Proof.Machine
end

