-- ==== Sys2Proof/Machine/Ops.lean ====
section
/-! DEFINITION. The named operations over the engine's registers, the sequencer's next positions
(43_hash_accumulator.md R124), one round (42_compress_engine.md R111), and the host-level operations
LAUNCH and RESET (43_hash_accumulator.md R125; 70_reset_and_hazards.md R160).

Nothing here takes an exception or returns from one: the engine has no trap mechanism
(60_exceptions.md R140, R144, R145). -/

namespace Sys2Proof.Machine

/-- Working variable `v[i]`, `v[0] = a` to `v[7] = h` (10_state.md R22). -/
def Vars.get (v : Vars) (i : Fin 8) : Word :=
  match i with
  | 0 => v.a
  | 1 => v.b
  | 2 => v.c
  | 3 => v.d
  | 4 => v.e
  | 5 => v.f
  | 6 => v.g
  | 7 => v.h

/-- The working variables that hold the eight words of a hash state (42_compress_engine.md R109). -/
def Vars.ofHash (H : Vector Word 8) : Vars where
  a := H[0]
  b := H[1]
  c := H[2]
  d := H[3]
  e := H[4]
  f := H[5]
  g := H[6]
  h := H[7]

/-- `temp1` of a round with constant `k` and schedule word `w` (42_compress_engine.md R111). -/
def Vars.temp1 (v : Vars) (k w : Word) : Word := v.h + bigSigma1 v.e + ch v.e v.f v.g + k + w

/-- `temp2` of a round (42_compress_engine.md R111). -/
def Vars.temp2 (v : Vars) : Word := bigSigma0 v.a + maj v.a v.b v.c

/-- One round on the working variables with constant `k` and schedule word `w`; every right-hand
side uses the values before the round (42_compress_engine.md R111). -/
def oneRound (v : Vars) (k w : Word) : Vars where
  a := v.temp1 k w + v.temp2
  b := v.a
  c := v.b
  d := v.c
  e := v.d + v.temp1 k w
  f := v.e
  g := v.f
  h := v.g

/-- The hash state plus the working variables, lane by lane modulo 2^32
(43_hash_accumulator.md R121). -/
def addVars (H : Vector Word 8) (v : Vars) : Vector Word 8 := Vector.ofFn fun i => H[i] + v.get i

/-- Write the hash state. -/
def State.setHash (s : State) (H : Vector Word 8) : State := { s with H := H }

/-- Write the working variables. -/
def State.setVars (s : State) (v : Vars) : State := { s with v := v }

/-- Write schedule word `j`. -/
def State.setWord (s : State) (j : Fin 64) (x : Word) : State := { s with W := s.W.set j.val x }

/-- Write the block buffer. -/
def State.setBlock (s : State) (B : Vector Byte 64) : State := { s with B := B }

/-- Write the digest register. -/
def State.setDigest (s : State) (DG : Vector Byte 32) : State := { s with DG := DG }

/-- Move the sequencer. -/
def State.setPos (s : State) (p : Pos) : State := { s with pos := p }

/-- Write the block index. -/
def State.setBlk (s : State) (n : Nat) : State := { s with blk := n }

/-- The position after LDW `j` (43_hash_accumulator.md R124). -/
def nextAfterLdw (j : Fin 64) : Pos :=
  if h : j.val < 15 then .atLdw ⟨j.val + 1, by omega⟩ else .atExw 16

/-- The position after EXW `j` (43_hash_accumulator.md R124). -/
def nextAfterExw (j : Fin 64) : Pos :=
  if h : j.val < 63 then .atExw ⟨j.val + 1, by omega⟩ else .atLdv

/-- The position after RND `j` (43_hash_accumulator.md R124). -/
def nextAfterRnd (j : Fin 64) : Pos :=
  if h : j.val < 63 then .atRnd ⟨j.val + 1, by omega⟩ else .atAcc

/-- After ACC: the next block if one follows, else FIN (43_hash_accumulator.md R121, R124). -/
def State.advanceBlock (s : State) : State :=
  if s.blk + 1 < s.blocks then (s.setBlk (s.blk + 1)).setPos .atPad else s.setPos .atFin

/-- The op word the sequencer produces at a position, none at WAIT (30_encoding.md R74). -/
def Pos.opWord : Pos → Option OpWord
  | .wait => none
  | .atInit => some 0x00
  | .atPad => some 0x01
  | .atLdw j => some (0x40 + BitVec.ofNat 8 j.val)
  | .atExw j => some (0x80 + BitVec.ofNat 8 j.val)
  | .atLdv => some 0x02
  | .atRnd j => some (0xC0 + BitVec.ofNat 8 j.val)
  | .atAcc => some 0x03
  | .atFin => some 0x04

/-- The position at which an operation is performed (30_encoding.md R74). -/
def Pos.ofInstr : Instr → Pos
  | .init => .atInit
  | .padblk => .atPad
  | .ldv => .atLdv
  | .acc => .atAcc
  | .fin => .atFin
  | .ldw j => .atLdw j
  | .exw j => .atExw j
  | .rnd j => .atRnd j

/-- The host's input for this step is taken. -/
def State.popInput (s : State) : State := { s with hostInputs := s.hostInputs.tail }

/-- LAUNCH(M): bind the call's parameters and start it (43_hash_accumulator.md R125).
While a call is running there is no such move (60_exceptions.md R153), and a message of 2^61 bytes
or more is refused (R141). -/
def launch (M : List Byte) (s : State) : Host.Outcome State Fault Refusal :=
  if s.pos ≠ .wait then .refused .launchWhileRunning
  else if Config.maxLenBytes < M.length then .refused .lengthOutOfRange
  else .next
    { s with msg := Memory.ofBytes M, msgLen := M.length, phase := .accept, pos := .atInit }

/-- RESET: the reset state, the call's parameters forgotten (70_reset_and_hazards.md R160).
What the host does afterwards is the host's. -/
def State.applyReset (s : State) : State := { State.reset with hostInputs := s.hostInputs }

/-- Put the sequencer where it performs the operation `i`, with a silent host. Where there is no
operation there is no position (30_encoding.md R74): the engine then stands at WAIT (DESIGN CHOICE,
assumption 6). -/
def State.placeOperation (s : State) (i : Option Instr) : State :=
  { s with pos := (i.map Pos.ofInstr).getD .wait, hostInputs := [] }

end Sys2Proof.Machine
end

