-- ==== Sys2Proof/Machine/Accumulator.lean ====
section
/-! DEFINITION. The hash accumulator's operations: INIT, ACC and FIN
(43_hash_accumulator.md R120 to R122). -/

namespace Sys2Proof.Machine

/-- INIT: start a call from the fixed initial values (43_hash_accumulator.md R120). -/
def execInit (s : State) : Host.Outcome State Fault Refusal :=
  .next ((((s.setHash initialHash).setBlk 0).setPhase .accept).setPos .atPad)

/-- ACC: add the working variables into the hash state (43_hash_accumulator.md R121). -/
def execAcc (s : State) : Host.Outcome State Fault Refusal :=
  .next (s.setHash (addVars s.H s.v)).advanceBlock

/-- FIN: produce the digest and enter the terminal state (43_hash_accumulator.md R122). -/
def execFin (s : State) : Host.Outcome State Fault Refusal :=
  .next (((s.setDigest (digestBytes s.H)).setPhase .done).setPos .wait)

end Sys2Proof.Machine
end

