-- ==== Sys2Proof/Machine/Compress.lean ====
section
/-! DEFINITION. The compress engine's operations: LDV and RND (42_compress_engine.md R109, R110). -/

namespace Sys2Proof.Machine

/-- LDV: load the working variables from the hash state (42_compress_engine.md R109). -/
def execLdv (s : State) : Host.Outcome State Fault Refusal :=
  .next ((s.setVars (Vars.ofHash s.H)).setPos (.atRnd 0))

/-- RND j: one compression round with K[j] and W[j] (42_compress_engine.md R110). -/
def execRnd (j : Fin 64) (s : State) : Host.Outcome State Fault Refusal :=
  .next ((s.setVars (oneRound s.v (K j) s.W[j])).setPos (nextAfterRnd j))

end Sys2Proof.Machine
end

