-- ==== Sys2Proof/Machine/Padding.lean ====
section
/-! DEFINITION. The padding controller's operation: PADBLK (40_padding_controller.md R87). -/

namespace Sys2Proof.Machine

/-- PADBLK: deliver block `blk` of the padded message into B (40_padding_controller.md R87). -/
def execPadblk (s : State) : Host.Outcome State Fault Refusal :=
  .next ((s.setBlock (s.padBlock s.blk)).setPos (.atLdw 0))

end Sys2Proof.Machine
end

