-- ==== Sys2Proof/Machine/Scheduler.lean ====
section
/-! DEFINITION. The message scheduler's operations: LDW and EXW (41_message_scheduler.md R97, R98). -/

namespace Sys2Proof.Machine

/-- LDW j: load schedule word j from the block buffer (41_message_scheduler.md R97).
An index of 16 or more names no operation (30_encoding.md R67). -/
def execLdw (j : Fin 64) (s : State) : Host.Outcome State Fault Refusal :=
  if h : j.val < 16 then .next ((s.setWord j (loadWord s.B j.val h)).setPos (nextAfterLdw j))
  else .fault .reservedOpWord

/-- EXW j: extend the schedule by word j (41_message_scheduler.md R98).
An index below 16 names no operation (30_encoding.md R67). -/
def execExw (j : Fin 64) (s : State) : Host.Outcome State Fault Refusal :=
  if h : 16 ≤ j.val then
    .next ((s.setWord j (expandWord s.W j.val h j.isLt)).setPos (nextAfterExw j))
  else .fault .reservedOpWord

end Sys2Proof.Machine
end

