-- ==== Sys2Proof/Machine/Dispatch.lean ====
section
/-! DEFINITION. The meaning of each micro-operation: one arm per constructor of `Instr`. -/

namespace Sys2Proof.Machine

def exec (i : Instr) (s : State) : Host.Outcome State Fault Refusal :=
  match i with
  | .init => Sys2Proof.Machine.execInit s
  | .padblk => Sys2Proof.Machine.execPadblk s
  | .ldv => Sys2Proof.Machine.execLdv s
  | .acc => Sys2Proof.Machine.execAcc s
  | .fin => Sys2Proof.Machine.execFin s
  | .ldw j => Sys2Proof.Machine.execLdw j s
  | .exw j => Sys2Proof.Machine.execExw j s
  | .rnd j => Sys2Proof.Machine.execRnd j s

end Sys2Proof.Machine
end

