-- ==== Sys2Proof/Machine/Sequencer.lean ====
section
/-! DEFINITION. Who moves at a step, and the move (43_hash_accumulator.md R134;
60_exceptions.md R143, R153). -/

namespace Sys2Proof.Machine

/-- What happens at one step. -/
inductive Turn where
  /-- The host applies RESET. -/
  | reset
  /-- The host launches a message. -/
  | launch (M : List Byte)
  /-- The engine stands at WAIT and the host does nothing at this step: the state is held
  (60_exceptions.md R152). -/
  | idle
  /-- The engine performs an operation. -/
  | perform (i : Instr)
  /-- The engine stands at WAIT and the host does nothing any more. -/
  | stuck
  /-- The position's op word is reserved. -/
  | reserved
deriving DecidableEq, Repr

/-- The engine's own move: the operation its position's op word decodes to (30_encoding.md R74). -/
def State.engineTurn (s : State) : Turn :=
  match s.pos.opWord with
  | none => .stuck
  | some w =>
    match decode w with
    | .op i => .perform i
    | .invalid _ => .reserved

/-- RESET wins over a coinciding LAUNCH or engine step (60_exceptions.md R143); a LAUNCH is the
host's move; otherwise the engine moves, and at WAIT a host that is silent at this step but not for
good lets the state be held. -/
def State.turn (s : State) : Turn :=
  match s.hostInputs with
  | [] => s.engineTurn
  | input :: _ =>
    if input.reset then .reset
    else
      match input.launch with
      | some M => .launch M
      | none => if s.pos = .wait then .idle else s.engineTurn

/-- Carry out a move. -/
def Turn.run (t : Turn) (s : State) : Host.Outcome State Fault Refusal :=
  match t with
  | .reset => .next s.popInput.applyReset
  | .launch M => Sys2Proof.Machine.launch M s.popInput
  | .idle => .next s.popInput
  | .perform i => exec i s.popInput
  | .stuck => .refused .noEnabledStep
  | .reserved => .fault .reservedOpWord

end Sys2Proof.Machine
end

