-- ==== Sys2Proof/Machine/Step.lean ====
section
/-! DEFINITION. One step of the machine, and the state whose next step performs a given op word. -/

namespace Sys2Proof.Machine

/-- One step: the move of whoever's turn it is (43_hash_accumulator.md R134). -/
def step (s : State) : Host.Outcome State Fault Refusal := s.turn.run s

/-- `s` with the sequencer where its next step performs the operation of the op word `w`.
The engine fetches no op words (30_encoding.md R63), so the word is placed by the position that
produces it (R74) and the host is silent; the call in progress is left as it is (assumption 6).
There is one op-word length, 8 bits (R68). What placing a word of another length, or a number that does
not fit, does is the model's choice: like a reserved word it names no operation, exactly as in
`decodeTableWord`, and nothing is performed (DESIGN CHOICE, assumption 6). -/
def State.withFetchWord (s : State) (nbits w : Nat) : State :=
  s.placeOperation (decodeTableWord nbits w)

end Sys2Proof.Machine
end

