-- ==== Sys2Proof/Machine/Digest.lean ====
section
/-! DEFINITION. The call as one function, the coarse grain of 43_hash_accumulator.md R134: the padded
message (40_padding_controller.md R80, R86), the schedule of a block (41_message_scheduler.md R99),
the rounds and the compression function (42_compress_engine.md R112, R113), the digest
(43_hash_accumulator.md R126). -/

namespace Sys2Proof.Machine

/-- The length field of the padding of a message of `L` bytes (40_padding_controller.md R82).
For a message of 2^61 bytes or more the spec gives the field no value and forbids reducing `8 L`
modulo 2^64 (R89; 93_implementation_defined.md U1): its bytes are then free values
(DESIGN CHOICE, assumption 16). -/
def lengthField (L : Nat) : List Byte :=
  if L ≤ Config.maxLenBytes then bytes64 (8 * L)
  else (List.range Config.lenFieldBytes).map fun k =>
    Config.undefinedPadding L (Config.blockBytes * blockCount L - Config.lenFieldBytes + k)

/-- `pad(M)`: the message, the marker, k zero bytes, the length field (40_padding_controller.md R80).
For a message of 2^61 bytes or more, which the spec leaves undefined (R89), the length field is free
(assumption 16). -/
def pad (M : List Byte) : List Byte :=
  M ++ [Config.padMark] ++ List.replicate (padZeros M.length) 0x00 ++ lengthField M.length

/-- `block(M, i)`: bytes 64 i to 64 i + 63 of `pad(M)` for `i < N` (40_padding_controller.md R86).
From `i = N` on there is no such block and its bytes are free values (DESIGN CHOICE,
assumption 16). -/
def block (M : List Byte) (i : Nat) : Vector Byte 64 :=
  Vector.ofFn fun q =>
    ((pad M)[Config.blockBytes * i + q.val]?).getD
      (Config.undefinedPadding M.length (Config.blockBytes * i + q.val))

/-- The schedule with entry `j` computed (41_message_scheduler.md R99). -/
def scheduleEntry (B : Vector Byte 64) (W : Vector Word 64) (j : Fin 64) : Vector Word 64 :=
  if h : j.val < 16 then W.set j.val (loadWord B j.val h)
  else W.set j.val (expandWord W j.val (Nat.le_of_not_lt h) j.isLt)

/-- The first `n` entries of the schedule of a block, over any earlier contents `W`. -/
def scheduleTo (B : Vector Byte 64) (W : Vector Word 64) : Nat → Vector Word 64
  | 0 => W
  | n + 1 => if h : n < 64 then scheduleEntry B (scheduleTo B W n) ⟨n, h⟩ else scheduleTo B W n

/-- `schedule(B)` (41_message_scheduler.md R99). All 64 entries are computed, so the contents it
starts from do not matter. -/
def schedule (B : Vector Byte 64) : Vector Word 64 := scheduleTo B (Vector.ofFn fun _ => 0) 64

/-- The working variables after the first `n` rounds (42_compress_engine.md R112). -/
def roundsTo (v : Vars) (W : Vector Word 64) : Nat → Vars
  | 0 => v
  | n + 1 =>
    if h : n < 64 then oneRound (roundsTo v W n) (K ⟨n, h⟩) W[n] else roundsTo v W n

/-- `rounds(v, W)`: all 64 rounds (42_compress_engine.md R112). -/
def rounds (v : Vars) (W : Vector Word 64) : Vars := roundsTo v W 64

/-- `compress(H, B)` (42_compress_engine.md R113). -/
def compress (H : Vector Word 8) (B : Vector Byte 64) : Vector Word 8 :=
  addVars H (rounds (Vars.ofHash H) (schedule B))

/-- `H_i`: the hash state after the first `i` blocks (43_hash_accumulator.md R126), `i <= N`. -/
def hashAfter (M : List Byte) : Nat → Vector Word 8
  | 0 => initialHash
  | i + 1 => compress (hashAfter M i) (block M i)

/-- `sha256(M)` (43_hash_accumulator.md R126). The digest of a message of 2^61 bytes or more is
undefined in the spec (40_padding_controller.md R89): here it is what the free bytes of the length
field give, so nothing particular can be proved of it (DESIGN CHOICE, assumption 16). -/
def sha256 (M : List Byte) : Vector Byte 32 := digestBytes (hashAfter M (blockCount M.length))

end Sys2Proof.Machine
end

