-- ==== Sys2Proof/Machine/System.lean ====
section
/-! DEFINITION. Several engines: the product of independent copies of the one-engine model, stepped
in any order (20_memory.md R51; 60_exceptions.md R150). -/

namespace Sys2Proof.Machine

/-- `n` engines; they share nothing but the constants. -/
abbrev System (n : Nat) := Vector State n

/-- Engine `k` takes its step and no other engine changes. -/
def System.stepAt {n : Nat} (S : System n) (k : Fin n) : Host.Outcome (System n) Fault Refusal :=
  match step S[k] with
  | .next t => .next (S.set k.val t)
  | .fault r => .fault r
  | .refused r => .refused r

end Sys2Proof.Machine
end

