-- ==== Sys2Proof/Safety.lean ====
section
/-! DEFINITION. What a safe run is: runs of steps, the operations a run performs, what each
operation reads and writes (10_state.md R20), the guarded machine, whose operations and whose host's
read of the digest fault on an element nothing has written (60_exceptions.md R154), and the
invariants of every reachable state (10_state.md R35). -/

namespace Sys2Proof.Safety

open Sys2Proof.Machine

/-- `n` steps, stopping at the first fault or refusal. -/
def run : Nat → State → Host.Outcome State Fault Refusal
  | 0, s => .next s
  | n + 1, s =>
    match step s with
    | .next t => run n t
    | .fault r => .fault r
    | .refused r => .refused r

/-- The host does nothing at the coming step. -/
def HostSilent (s : State) : Prop :=
  ∀ input ∈ s.hostInputs.head?, input.reset = false ∧ input.launch = none

/-- The operations the engine performs in the first `n` steps from `s`, in order
(30_encoding.md R69). -/
def opsOf : Nat → State → List Instr
  | 0, _ => []
  | n + 1, s =>
    let rest : List Instr :=
      match step s with
      | .next t => opsOf n t
      | .fault _ => []
      | .refused _ => []
    match s.turn with
    | .perform i => i :: rest
    | .reset => rest
    | .launch _ => rest
    | .idle => rest
    | .stuck => rest
    | .reserved => rest

/-- One element of the engine's data state (10_state.md R20, R32). -/
inductive Element where
  | H (i : Fin 8)
  | v (i : Fin 8)
  | W (j : Fin 64)
  | B (q : Fin 64)
  | DG (q : Fin 32)
deriving DecidableEq, Repr

/-- Two states hold the same value in an element. -/
def Element.Same (s t : State) : Element → Prop
  | .H i => s.H[i] = t.H[i]
  | .v i => s.v.get i = t.v.get i
  | .W j => s.W[j] = t.W[j]
  | .B q => s.B[q] = t.B[q]
  | .DG q => s.DG[q] = t.DG[q]

/-- All elements of H. -/
def allH : List Element := (List.finRange 8).map .H

/-- All working variables. -/
def allV : List Element := (List.finRange 8).map .v

/-- All entries of W. -/
def allW : List Element := (List.finRange 64).map .W

/-- All bytes of B. -/
def allB : List Element := (List.finRange 64).map .B

/-- All bytes of DG. -/
def allDG : List Element := (List.finRange 32).map .DG

/-- The elements an operation reads: the lines "Reads" of its rule (40_padding_controller.md R87;
41_message_scheduler.md R97, R98; 42_compress_engine.md R109, R110; 43_hash_accumulator.md R120 to
R122). -/
def readsOf : Instr → List Element
  | .init => []
  | .padblk => []
  | .ldv => allH
  | .acc => allH ++ allV
  | .fin => allH
  | .ldw j => (List.range 4).map fun k => .B (Fin.ofNat 64 (4 * j.val + k))
  | .exw j =>
    [.W (Fin.ofNat 64 (j.val - 16)), .W (Fin.ofNat 64 (j.val - 15)), .W (Fin.ofNat 64 (j.val - 7)),
      .W (Fin.ofNat 64 (j.val - 2))]
  | .rnd j => .W j :: allV

/-- The elements an operation writes: the lines "Writes" of its rule. -/
def writesOf : Instr → List Element
  | .init => allH
  | .padblk => allB
  | .ldv => allV
  | .acc => allH
  | .fin => allDG
  | .ldw j => [.W j]
  | .exw j => [.W j]
  | .rnd _ => allV

/-- The addresses of the message space that an operation reads, in order
(40_padding_controller.md R87): only PADBLK reads it, one byte at a time, below L. -/
def messageReadsOf (i : Instr) (s : State) : List Nat :=
  match i with
  | .init => []
  | .padblk =>
    ((List.range 64).map fun q => Config.blockBytes * s.blk + q).filter fun p => decide (p < s.msgLen)
  | .ldv => []
  | .acc => []
  | .fin => []
  | .ldw _ => []
  | .exw _ => []
  | .rnd _ => []

/-- The addresses of the message space read in the first `n` steps from `s`, in order. -/
def messageReads : Nat → State → List Nat
  | 0, _ => []
  | n + 1, s =>
    let rest : List Nat :=
      match step s with
      | .next t => messageReads n t
      | .fault _ => []
      | .refused _ => []
    match s.turn with
    | .perform i => messageReadsOf i s ++ rest
    | .reset => rest
    | .launch _ => rest
    | .idle => rest
    | .stuck => rest
    | .reserved => rest

/-- An engine together with the elements that something has written since RESET. -/
structure Guarded where
  state : State
  written : List Element
deriving DecidableEq, Repr

/-- The outcome of a step with the written elements beside the next state. -/
def Guarded.of (written : List Element) :
    Host.Outcome State Fault Refusal → Host.Outcome Guarded Fault Refusal
  | .next t => .next { state := t, written := written }
  | .fault r => .fault r
  | .refused r => .refused r

/-- An answer that rests on the elements `reads`: it faults when nothing has written one of them since
RESET (10_state.md R32; 60_exceptions.md R154). -/
def Guarded.reading {α : Type} (g : Guarded) (reads : List Element)
    (answer : Host.Outcome α Fault Refusal) : Host.Outcome α Fault Refusal :=
  if reads.all (fun x => decide (x ∈ g.written)) then answer else .fault .readOfUnwrittenState

/-- A step that faults when an operation reads an element nothing has written since RESET
(10_state.md R32; 60_exceptions.md R154). After RESET only H has a value (10_state.md R34). -/
def guardedStep (g : Guarded) : Host.Outcome Guarded Fault Refusal :=
  match g.state.turn with
  | .perform i => g.reading (readsOf i) (Guarded.of (writesOf i ++ g.written) (step g.state))
  | .reset => Guarded.of allH (step g.state)
  | .launch _ => Guarded.of g.written (step g.state)
  | .idle => Guarded.of g.written (step g.state)
  | .stuck => Guarded.of g.written (step g.state)
  | .reserved => Guarded.of g.written (step g.state)

/-- The host's read of the digest, which faults when nothing has written one of the bytes of DG it
reads (60_exceptions.md R154; 93_implementation_defined.md U5). While `done = 0` it is refused and
reads no element (43_hash_accumulator.md R131). Like `State.readDigest` it changes nothing. -/
def guardedReadDigest (g : Guarded) : Host.Outcome (Vector Byte 32) Fault Refusal :=
  match g.state.readDigest with
  | .ok digest => g.reading allDG (.next digest)
  | .error r => .refused r

/-- The engine right after RESET, with the host's inputs to come. -/
def resetWith (inputs : List HostInput) : State := { State.reset with hostInputs := inputs }

/-- The guarded engine right after RESET. -/
def Guarded.reset (inputs : List HostInput) : Guarded :=
  { state := resetWith inputs, written := allH }

/-- What a position needs written: everything the operations from there to the end of the block
read before they write it. -/
def neededAt : Pos → List Element
  | .wait => allH
  | .atInit => allH
  | .atPad => allH
  | .atLdw j => allH ++ allB ++ (allW.take j.val)
  | .atExw j => allH ++ (allW.take j.val)
  | .atLdv => allH ++ allW
  | .atRnd _ => allH ++ allW ++ allV
  | .atAcc => allH ++ allV
  | .atFin => allH

/-- Everything a position needs is written, and the digest is written once the phase is DONE. -/
structure WrittenInv (g : Guarded) : Prop where
  legalPos : g.state.pos.legal = true
  needed : ∀ x ∈ neededAt g.state.pos, x ∈ g.written
  digest : g.state.phase = .done → ∀ x ∈ allDG, x ∈ g.written

/-- The control invariant of every reachable state (10_state.md R27, R35 items 1 to 3; 20_memory.md
R41), with the form in which the model stores it (assumptions 1, 3 and 5). -/
structure ControlInv (s : State) : Prop where
  /-- The index of a position is in its range (R27). -/
  legalPos : s.pos.legal = true
  /-- `phase = DONE` implies `pos = WAIT` (R35 item 1). -/
  doneWaits : s.phase = .done → s.pos = .wait
  /-- WAIT with ACCEPT is the reset state only (R35 item 2); that this is one single state is the
  model's choice (assumptions 1 and 3). -/
  acceptingWaitIsReset : s.pos = .wait → s.phase = .accept → s = resetWith s.hostInputs
  /-- While `pos` is not WAIT, `phase = ACCEPT` (R35 item 3). -/
  callAccepts : s.pos ≠ .wait → s.phase = .accept
  /-- While `pos` is neither WAIT nor AT_INIT, `blk < N` (R35 item 3). -/
  blkInCall : s.pos ≠ .wait → s.pos ≠ .atInit → s.blk < s.blocks
  /-- `blk` fits its 56 bits (R27). -/
  blkFits : s.blk < 2 ^ 56
  /-- The message is stored in canonical form, the model's choice (assumption 5). -/
  msgCanonical : Memory.wf s.msg = true
  /-- No address at or beyond L exists (R41). -/
  msgWithin : Memory.within s.msg s.msgLen = true
  /-- Every admitted message has a legal length (R30). -/
  msgLegal : s.msgLen ≤ Config.maxLenBytes

/-- The block of the call that the engine is working on. -/
def currentBlock (s : State) : Vector Byte 64 := block s.message s.blk

/-- The data invariant: at every position of a call the registers hold what the call has computed so
far, and in DONE the digest is that of the message last launched (10_state.md R35 items 4 and 5;
43_hash_accumulator.md R126). -/
structure DataInv (s : State) : Prop where
  /-- Before the last ACC of the call, H is the hash state after blocks 0 to `blk - 1`. -/
  hashSoFar : s.pos ≠ .wait → s.pos ≠ .atInit → s.pos ≠ .atFin → s.H = hashAfter s.message s.blk
  /-- While words are loaded, B is the current block. -/
  blockLoaded : ∀ j, s.pos = .atLdw j → s.B = currentBlock s
  /-- While words are loaded, the earlier entries of W are computed. -/
  loadedSoFar : ∀ j, s.pos = .atLdw j → ∀ i : Fin 64, i < j → s.W[i] = (schedule (currentBlock s))[i]
  /-- While the schedule is extended, the earlier entries of W are computed. -/
  expandedSoFar :
    ∀ j, s.pos = .atExw j → ∀ i : Fin 64, i < j → s.W[i] = (schedule (currentBlock s))[i]
  /-- From LDV on, W is the schedule of the current block. -/
  scheduleDone : s.pos = .atLdv → s.W = schedule (currentBlock s)
  /-- Before round j the working variables are those after j rounds. -/
  roundsSoFar :
    ∀ j, s.pos = .atRnd j →
      s.W = schedule (currentBlock s) ∧ s.v = roundsTo (Vars.ofHash s.H) s.W j.val
  /-- After the rounds the working variables are those after all of them. -/
  roundsDone : s.pos = .atAcc → s.v = rounds (Vars.ofHash s.H) (schedule (currentBlock s))
  /-- At AT_FIN the last block is in H. -/
  hashDone : s.pos = .atFin → s.H = hashAfter s.message s.blocks ∧ s.blk + 1 = s.blocks
  /-- In DONE the digest is that of the message, H the final hash state, `blk` the last block. -/
  digestDone :
    s.phase = .done →
      s.DG = sha256 s.message ∧ s.DG = digestBytes s.H ∧ s.H = hashAfter s.message s.blocks ∧
        s.blk + 1 = s.blocks

end Sys2Proof.Safety
end

