-- ==== Sys2Proof/Certificates/Slice0/Obligations.lean ====
section
/-! DEFINITION. The statements about the model, for the provers: each is `def Obligations.<Name> : Prop`
and its docstring names the rule of the spec it formalises. -/

open Sys2Proof Sys2Proof.Machine Sys2Proof.Safety

/-! ## Encoding -/

/-- The decoding function of 30_encoding.md R73, case by case on `cls = w[7:6]` and `idx = w[5:0]`
written as quotient and remainder, and that the encoder inverts it on every assigned word.
The op words are the spec's own choice (92_eei_decisions.md D11). -/
def Obligations.DecodeFollowsTheCaseTable : Prop :=
  ∀ w : OpWord,
    (w.toNat / 64 = 0 →
      (w.toNat % 64 = 0 → decode w = .op .init) ∧
      (w.toNat % 64 = 1 → decode w = .op .padblk) ∧
      (w.toNat % 64 = 2 → decode w = .op .ldv) ∧
      (w.toNat % 64 = 3 → decode w = .op .acc) ∧
      (w.toNat % 64 = 4 → decode w = .op .fin) ∧
      (5 ≤ w.toNat % 64 → ∃ why, decode w = .invalid why)) ∧
    (w.toNat / 64 = 1 →
      (w.toNat % 64 ≤ 15 → decode w = .op (.ldw (Fin.ofNat 64 w.toNat))) ∧
      (16 ≤ w.toNat % 64 → ∃ why, decode w = .invalid why)) ∧
    (w.toNat / 64 = 2 →
      (16 ≤ w.toNat % 64 → decode w = .op (.exw (Fin.ofNat 64 w.toNat))) ∧
      (w.toNat % 64 ≤ 15 → ∃ why, decode w = .invalid why)) ∧
    (w.toNat / 64 = 3 → decode w = .op (.rnd (Fin.ofNat 64 w.toNat))) ∧
    (∀ i, decode w = .op i → encode i = w)

/-- Decoding the op word of a micro-operation gives that operation back, for every operation with
every index its class allows; and the decoder gives nothing but such operations
(30_encoding.md R64 to R66, R73).
The op words are the spec's own choice (92_eei_decisions.md D11). -/
def Obligations.DecodeInvertsEncode : Prop :=
  (∀ i : Instr, i.wellFormed = true → decode (encode i) = .op i) ∧
  (∀ (w : OpWord) (i : Instr), decode w = .op i → i.wellFormed = true)

/-- Which op words are reserved, how many, and that no sequencer position produces one
(30_encoding.md R67).
The op words are the spec's own choice (92_eei_decisions.md D11).
That they are reserved is its choice D24. -/
def Obligations.ReservedWordsNameNoOperation : Prop :=
  (∀ w : OpWord, (∃ why, decode w = .invalid why) ↔
    (0x05 ≤ w.toNat ∧ w.toNat ≤ 0x3F) ∨ (0x50 ≤ w.toNat ∧ w.toNat ≤ 0x7F) ∨
      (0x80 ≤ w.toNat ∧ w.toNat ≤ 0x8F)) ∧
  ((List.range 256).filterMap (decodeTableWord 8)).length = 133 ∧
  (∀ p : Pos, p.legal = true → ∀ w, p.opWord = some w → ∃ i, decode w = .op i)

/-- The op word of each position, and that it names the operation performed there
(30_encoding.md R74).
The op words are the spec's own choice (92_eei_decisions.md D11).
The positions are its choice D5. -/
def Obligations.PositionProducesItsOpWord : Prop :=
  Pos.opWord .wait = none ∧
  Pos.opWord .atInit = some 0x00 ∧ decode 0x00 = .op .init ∧
  Pos.opWord .atPad = some 0x01 ∧ decode 0x01 = .op .padblk ∧
  (∀ j : Fin 64, j.val < 16 → ∃ w : OpWord,
    Pos.opWord (.atLdw j) = some w ∧ w.toNat = 0x40 + j.val ∧ decode w = .op (.ldw j)) ∧
  (∀ j : Fin 64, 16 ≤ j.val → ∃ w : OpWord,
    Pos.opWord (.atExw j) = some w ∧ w.toNat = 0x80 + j.val ∧ decode w = .op (.exw j)) ∧
  Pos.opWord .atLdv = some 0x02 ∧ decode 0x02 = .op .ldv ∧
  (∀ j : Fin 64, ∃ w : OpWord,
    Pos.opWord (.atRnd j) = some w ∧ w.toNat = 0xC0 + j.val ∧ decode w = .op (.rnd j)) ∧
  Pos.opWord .atAcc = some 0x03 ∧ decode 0x03 = .op .acc ∧
  Pos.opWord .atFin = some 0x04 ∧ decode 0x04 = .op .fin

/-- A few op words, written out from 30_encoding.md R65 and R66, decode to their operations.
The op words are the spec's own choice (92_eei_decisions.md D11). -/
def Obligations.WrittenOutWordsDecode : Prop :=
  decode 0b00000000#8 = .op .init ∧ decode 0b00000001#8 = .op .padblk ∧
  decode 0b00000010#8 = .op .ldv ∧ decode 0b00000011#8 = .op .acc ∧
  decode 0b00000100#8 = .op .fin ∧ decode 0b01001111#8 = .op (.ldw 15) ∧
  decode 0b10010000#8 = .op (.exw 16) ∧ decode 0b10111111#8 = .op (.exw 63) ∧
  decode 0b11000000#8 = .op (.rnd 0) ∧ decode 0b11111111#8 = .op (.rnd 63)

/-! ## The step -/

/-- When the host is silent and the op word of the sequencer's position decodes to an operation, the
step is that operation's meaning, in the state whose input entry for this step is taken. With no
input entry left that state is the state itself.
The input entries are the model's own device (assumption 2); the positions are the spec's choice D5. -/
def Obligations.StepPerformsTheDecodedOperation : Prop :=
  ∀ (s : State) (w : OpWord) (i : Instr),
    HostSilent s → s.pos.opWord = some w → decode w = .op i →
      step s = exec i s.popInput ∧ (s.hostInputs = [] → step s = exec i s)

/-- `withFetchWord` places an operation: the next step performs it in the otherwise same state with
a silent host (the model's own device, assumption 6). -/
def Obligations.PlacedWordIsPerformedNext : Prop :=
  ∀ (i : Instr) (s : State), i.wellFormed = true →
    step (s.withFetchWord 8 (encode i).toNat) =
      exec i { s with pos := Pos.ofInstr i, hostInputs := [] }

/-- In a state with `pos` not WAIT the engine has exactly one enabled step, the operation of `pos`,
and it neither faults nor is refused; at WAIT it has no step (43_hash_accumulator.md R134).
The refusal's name and the input entries are the model's own (assumptions 2 and 8). -/
def Obligations.EngineStepIsAlwaysEnabled : Prop :=
  (∀ s : State, s.pos.legal = true → s.pos ≠ .wait → HostSilent s →
    ∃ i t, s.pos = Pos.ofInstr i ∧ (s.pos.opWord.map decode) = some (.op i) ∧
      exec i s.popInput = .next t ∧ step s = .next t) ∧
  (∀ s : State, s.pos = .wait → s.hostInputs = [] → step s = .refused .noEnabledStep)

/-- The position and the block index after each operation (43_hash_accumulator.md R124), N being
`floor((L + 8) / 64) + 1`.
The split into positions is the spec's own choice D5. -/
def Obligations.SequencerFollowsTheNextTable : Prop :=
  ∀ s : State, HostSilent s →
    (s.pos = .atInit → ∃ t, step s = .next t ∧ t.pos = .atPad ∧ t.blk = 0) ∧
    (s.pos = .atPad → ∃ t, step s = .next t ∧ t.pos = .atLdw 0 ∧ t.blk = s.blk) ∧
    (∀ j : Fin 64, s.pos = .atLdw j → j.val < 15 →
      ∃ t k, step s = .next t ∧ t.pos = .atLdw k ∧ k.val = j.val + 1 ∧ t.blk = s.blk) ∧
    (s.pos = .atLdw 15 → ∃ t, step s = .next t ∧ t.pos = .atExw 16 ∧ t.blk = s.blk) ∧
    (∀ j : Fin 64, s.pos = .atExw j → 16 ≤ j.val → j.val < 63 →
      ∃ t k, step s = .next t ∧ t.pos = .atExw k ∧ k.val = j.val + 1 ∧ t.blk = s.blk) ∧
    (s.pos = .atExw 63 → ∃ t, step s = .next t ∧ t.pos = .atLdv ∧ t.blk = s.blk) ∧
    (s.pos = .atLdv → ∃ t, step s = .next t ∧ t.pos = .atRnd 0 ∧ t.blk = s.blk) ∧
    (∀ j : Fin 64, s.pos = .atRnd j → j.val < 63 →
      ∃ t k, step s = .next t ∧ t.pos = .atRnd k ∧ k.val = j.val + 1 ∧ t.blk = s.blk) ∧
    (s.pos = .atRnd 63 → ∃ t, step s = .next t ∧ t.pos = .atAcc ∧ t.blk = s.blk) ∧
    (s.pos = .atAcc → s.blk + 1 < (s.msgLen + 8) / 64 + 1 →
      ∃ t, step s = .next t ∧ t.pos = .atPad ∧ t.blk = s.blk + 1) ∧
    (s.pos = .atAcc → s.blk + 1 = (s.msgLen + 8) / 64 + 1 →
      ∃ t, step s = .next t ∧ t.pos = .atFin ∧ t.blk = s.blk) ∧
    (s.pos = .atFin → ∃ t, step s = .next t ∧ t.pos = .wait ∧ t.blk = s.blk) ∧
    (s.pos = .wait → s.hostInputs = [] → ∀ t, step s ≠ .next t)

/-- No data value influences control: two engines at the same position and block of messages of the
same length move to the same position and block, whatever the bytes and words they hold
(43_hash_accumulator.md R124; 70_reset_and_hazards.md R170).
The positions are the spec's own choice D5. -/
def Obligations.ControlIgnoresData : Prop :=
  ∀ s t s' : State, s.pos = t.pos → s.blk = t.blk → s.msgLen = t.msgLen →
    s.hostInputs = [] → t.hostInputs = [] → step s = .next s' →
      ∃ t', step t = .next t' ∧ s'.pos = t'.pos ∧ s'.blk = t'.blk ∧ s'.msgLen = t'.msgLen

/-! ## The micro-operations: result and frame -/

/-- INIT, op word 0x00, performed at AT_INIT, writes IV into H, 0 into `blk`, ACCEPT into the phase, and
moves to AT_PAD; it touches nothing else (43_hash_accumulator.md R120; the values of IV from
10_state.md R29). -/
def Obligations.InitResult : Prop :=
  Pos.opWord .atInit = some 0x00 ∧ decode 0x00 = .op .init ∧
  ∀ s : State, ∃ H : Vector Word 8,
    exec .init s = .next { s with H := H, blk := 0, phase := .accept, pos := .atPad } ∧
    H[0] = 0x6a09e667 ∧ H[1] = 0xbb67ae85 ∧ H[2] = 0x3c6ef372 ∧ H[3] = 0xa54ff53a ∧
    H[4] = 0x510e527f ∧ H[5] = 0x9b05688c ∧ H[6] = 0x1f83d9ab ∧ H[7] = 0x5be0cd19

/-- PADBLK, op word 0x01, performed at AT_PAD, writes all of B, moves to AT_LDW 0 and touches nothing
else; for a block of the call each byte is byte `64 blk + q` of the padded message by the four cases
of 40_padding_controller.md R88 (R87). Outside a call's blocks, which no run reaches, it still
completes.
The bytewise form R88 is inferred by the spec from R80 and R83; the op word is its choice D11. -/
def Obligations.PadblkResult : Prop :=
  Pos.opWord .atPad = some 0x01 ∧ decode 0x01 = .op .padblk ∧
  ∀ s : State, ∃ B : Vector Byte 64,
    exec .padblk s = .next { s with B := B, pos := .atLdw 0 } ∧
    (s.blk < (s.msgLen + 8) / 64 + 1 → s.msgLen ≤ 2 ^ 61 - 1 →
      ∀ (q : Fin 64) (p N : Nat), p = 64 * s.blk + q.val → N = (s.msgLen + 8) / 64 + 1 →
        (p < s.msgLen → s.memRead p = some B[q]) ∧
        (p = s.msgLen → B[q] = 0x80) ∧
        (s.msgLen < p → p < 64 * N - 8 → B[q] = 0x00) ∧
        (64 * N - 8 ≤ p →
          B[q].toNat = (8 * s.msgLen) / 2 ^ (8 * (64 * N - 1 - p)) % 256))

/-- LDW j, 0 <= j <= 15, op word 0x40 + j, performed at AT_LDW j, writes `be32` of bytes 4j to 4j+3 of
B into W[j], moves on, and touches nothing else (41_message_scheduler.md R97). -/
def Obligations.LdwResult : Prop :=
  ∀ (s : State) (j : Fin 64) (h : j.val < 16),
    (∃ w : OpWord, Pos.opWord (.atLdw j) = some w ∧ w.toNat = 0x40 + j.val ∧
      decode w = .op (.ldw j)) ∧
    ∃ W : Vector Word 64,
    exec (.ldw j) s =
      .next { s with W := W, pos := if j.val < 15 then .atLdw (j + 1) else .atExw 16 } ∧
    W[j].toNat =
      s.B[4 * j.val].toNat * 2 ^ 24 + s.B[4 * j.val + 1].toNat * 2 ^ 16 +
        s.B[4 * j.val + 2].toNat * 2 ^ 8 + s.B[4 * j.val + 3].toNat ∧
    ∀ k : Fin 64, k ≠ j → W[k] = s.W[k]

/-- EXW j, 16 <= j <= 63, op word 0x80 + j, performed at AT_EXW j, writes
`W[j-16] + σ0(W[j-15]) + W[j-7] + σ1(W[j-2])` into W[j], moves on, and touches nothing else
(41_message_scheduler.md R98, the sigmas written out from R95, R96). -/
def Obligations.ExwResult : Prop :=
  ∀ (s : State) (j : Fin 64), 16 ≤ j.val →
    (∃ w : OpWord, Pos.opWord (.atExw j) = some w ∧ w.toNat = 0x80 + j.val ∧
      decode w = .op (.exw j)) ∧
    ∃ W : Vector Word 64,
    exec (.exw j) s =
      .next { s with W := W, pos := if j.val < 63 then .atExw (j + 1) else .atLdv } ∧
    W[j] =
      s.W[j.val - 16] +
        (s.W[j.val - 15].rotateRight 7 ^^^ s.W[j.val - 15].rotateRight 18 ^^^
          s.W[j.val - 15] >>> 3) +
        s.W[j.val - 7] +
        (s.W[j.val - 2].rotateRight 17 ^^^ s.W[j.val - 2].rotateRight 19 ^^^
          s.W[j.val - 2] >>> 10) ∧
    ∀ k : Fin 64, k ≠ j → W[k] = s.W[k]

/-- LDV, op word 0x02, performed at AT_LDV, copies H[0..7] into a..h, moves to AT_RND 0 and touches
nothing else (42_compress_engine.md R109). -/
def Obligations.LdvResult : Prop :=
  Pos.opWord .atLdv = some 0x02 ∧ decode 0x02 = .op .ldv ∧
  ∀ s : State,
    exec .ldv s =
      .next { s with
        v := ⟨s.H[0], s.H[1], s.H[2], s.H[3], s.H[4], s.H[5], s.H[6], s.H[7]⟩
        pos := .atRnd 0 }

/-- RND j, op word 0xC0 + j, performed at AT_RND j, performs one round on a..h with K[j] and W[j], all
reads before all writes, moves on and touches nothing else (42_compress_engine.md R110, R111, the
functions written out from R105 to R108). -/
def Obligations.RndResult : Prop :=
  (∀ j : Fin 64, ∃ w : OpWord, Pos.opWord (.atRnd j) = some w ∧ w.toNat = 0xC0 + j.val ∧
    decode w = .op (.rnd j)) ∧
  ∀ (s : State) (j : Fin 64) (temp1 temp2 : Word),
    temp1 =
      s.v.h +
        (s.v.e.rotateRight 6 ^^^ s.v.e.rotateRight 11 ^^^ s.v.e.rotateRight 25) +
        ((s.v.e &&& s.v.f) ^^^ (~~~s.v.e &&& s.v.g)) + K j + s.W[j] →
    temp2 =
      (s.v.a.rotateRight 2 ^^^ s.v.a.rotateRight 13 ^^^ s.v.a.rotateRight 22) +
        ((s.v.a &&& s.v.b) ^^^ (s.v.a &&& s.v.c) ^^^ (s.v.b &&& s.v.c)) →
    exec (.rnd j) s =
      .next { s with
        v := { a := temp1 + temp2, b := s.v.a, c := s.v.b, d := s.v.c, e := s.v.d + temp1,
               f := s.v.e, g := s.v.f, h := s.v.g }
        pos := if j.val < 63 then .atRnd (j + 1) else .atAcc }

/-- ACC, op word 0x03, performed at AT_ACC, adds v[i] into H[i] in eight lanes modulo 2^32, moves to
the next block if one follows and to AT_FIN otherwise, and touches nothing else
(43_hash_accumulator.md R121). -/
def Obligations.AccResult : Prop :=
  Pos.opWord .atAcc = some 0x03 ∧ decode 0x03 = .op .acc ∧
  ∀ s : State, ∃ H : Vector Word 8,
    (∀ i : Fin 8, H[i].toNat = (s.H[i].toNat + (s.v.get i).toNat) % 2 ^ 32) ∧
    s.v.get 0 = s.v.a ∧ s.v.get 1 = s.v.b ∧ s.v.get 2 = s.v.c ∧ s.v.get 3 = s.v.d ∧
    s.v.get 4 = s.v.e ∧ s.v.get 5 = s.v.f ∧ s.v.get 6 = s.v.g ∧ s.v.get 7 = s.v.h ∧
    (s.blk + 1 < (s.msgLen + 8) / 64 + 1 →
      exec .acc s = .next { s with H := H, blk := s.blk + 1, pos := .atPad }) ∧
    (¬ s.blk + 1 < (s.msgLen + 8) / 64 + 1 →
      exec .acc s = .next { s with H := H, pos := .atFin })

/-- FIN, op word 0x04, performed at AT_FIN, writes the bytes of H[0..7] into DG, most significant
first, sets the phase to DONE in the same step, moves to WAIT and touches nothing else
(43_hash_accumulator.md R122). -/
def Obligations.FinResult : Prop :=
  Pos.opWord .atFin = some 0x04 ∧ decode 0x04 = .op .fin ∧
  ∀ s : State, ∃ DG : Vector Byte 32,
    exec .fin s = .next { s with DG := DG, phase := .done, pos := .wait } ∧
    ∀ (i : Fin 8) (k : Fin 4),
      DG[4 * i.val + k.val].toNat = s.H[i].toNat / 2 ^ (8 * (3 - k.val)) % 256

/-- An index outside its class names no operation (30_encoding.md R67): the meaning stops by name and
computes nothing. The fault is the model's own guard (93_implementation_defined.md U7). -/
def Obligations.ReservedIndexStops : Prop :=
  (∀ (s : State) (j : Fin 64), 16 ≤ j.val → exec (.ldw j) s = .fault .reservedOpWord) ∧
  (∀ (s : State) (j : Fin 64), j.val < 16 → exec (.exw j) s = .fault .reservedOpWord)

/-- An operation's results depend on the elements it reads, on `blk` and on the call's parameters
only: engines that agree on those agree on everything it writes (the read sets of 10_state.md R20
and of the operation rules). -/
def Obligations.OperationsReadOnlyTheirReadSet : Prop :=
  ∀ (i : Instr) (s t s' : State), s.blk = t.blk → s.msg = t.msg → s.msgLen = t.msgLen →
    (∀ x ∈ readsOf i, Element.Same s t x) → exec i s = .next s' →
      ∃ t', exec i t = .next t' ∧ (∀ x ∈ writesOf i, Element.Same s' t' x) ∧
        s'.pos = t'.pos ∧ s'.blk = t'.blk

/-- An operation leaves every element outside its write set as it was, it writes `phase` only when it
is INIT or FIN and `blk` only when it is INIT or ACC, and it leaves the call's parameters and the
host's inputs alone (the write sets of 10_state.md R20 and of the operation rules). -/
def Obligations.OperationsWriteOnlyTheirWriteSet : Prop :=
  ∀ (i : Instr) (s t : State), exec i s = .next t →
    (∀ x, x ∉ writesOf i → Element.Same s t x) ∧
    (i ≠ .init → i ≠ .fin → t.phase = s.phase) ∧
    (i ≠ .init → i ≠ .acc → t.blk = s.blk) ∧
    t.msg = s.msg ∧ t.msgLen = s.msgLen ∧ t.hostInputs = s.hostInputs

/-! ## The word and byte functions -/

/-- The small sigmas bit by bit (41_message_scheduler.md R95, R96 over 00_scope.md R13). -/
def Obligations.SmallSigmasBitByBit : Prop :=
  ∀ (x : Word) (i : Nat), i < 32 →
    (smallSigma0 x).getLsbD i =
      (x.getLsbD ((i + 7) % 32) ^^ x.getLsbD ((i + 18) % 32) ^^
        (decide (i + 3 < 32) && x.getLsbD (i + 3))) ∧
    (smallSigma1 x).getLsbD i =
      (x.getLsbD ((i + 17) % 32) ^^ x.getLsbD ((i + 19) % 32) ^^
        (decide (i + 10 < 32) && x.getLsbD (i + 10)))

/-- The big sigmas bit by bit (42_compress_engine.md R105, R106 over 00_scope.md R13). -/
def Obligations.BigSigmasBitByBit : Prop :=
  ∀ (x : Word) (i : Nat), i < 32 →
    (bigSigma0 x).getLsbD i =
      (x.getLsbD ((i + 2) % 32) ^^ x.getLsbD ((i + 13) % 32) ^^ x.getLsbD ((i + 22) % 32)) ∧
    (bigSigma1 x).getLsbD i =
      (x.getLsbD ((i + 6) % 32) ^^ x.getLsbD ((i + 11) % 32) ^^ x.getLsbD ((i + 25) % 32))

/-- Ch takes the bit of f where e is 1 and of g where it is 0; Maj takes the value at least two of
the three bits have and is symmetric (42_compress_engine.md R107, R108). -/
def Obligations.ChooseAndMajorityBitByBit : Prop :=
  (∀ (e f g : Word) (i : Nat), i < 32 →
    (ch e f g).getLsbD i = if e.getLsbD i then f.getLsbD i else g.getLsbD i) ∧
  (∀ (a b c : Word) (i : Nat), i < 32 →
    (maj a b c).getLsbD i =
      decide (2 ≤ (a.getLsbD i).toNat + (b.getLsbD i).toNat + (c.getLsbD i).toNat)) ∧
  (∀ a b c : Word, maj a b c = maj b a c ∧ maj a b c = maj a c b)

/-- Byte packing: the first byte is the most significant, and packing inverts unpacking
(00_scope.md R14). -/
def Obligations.BytePackingIsBigEndian : Prop :=
  (∀ b0 b1 b2 b3 : Byte,
    (be32 b0 b1 b2 b3).toNat =
      b0.toNat * 2 ^ 24 + b1.toNat * 2 ^ 16 + b2.toNat * 2 ^ 8 + b3.toNat) ∧
  (∀ (x : Word) (k : Fin 4), (bytes32 x)[k].toNat = x.toNat / 2 ^ (8 * (3 - k.val)) % 256) ∧
  (∀ x : Word, be32 (bytes32 x)[0] (bytes32 x)[1] (bytes32 x)[2] (bytes32 x)[3] = x) ∧
  (∀ n : Nat, n < 2 ^ 64 → (bytes64 n).length = 8 ∧
    ∀ k : Fin 8, ((bytes64 n).getD k.val 0).toNat = n / 2 ^ (8 * (7 - k.val)) % 256)

/-- The digest as a 256-bit vector has DG[0] as its top byte (20_memory.md R53).
The bit numbering is the spec's own choice D16. -/
def Obligations.DigestVectorPutsFirstByteOnTop : Prop :=
  ∀ (DG : Vector Byte 32) (q : Fin 32),
    (digestVector DG).extractLsb' (248 - 8 * q.val) 8 = DG[q]

/-- K[j] is the first 32 bits of the fractional part of the cube root of the j-th prime:
`icbrt(p_j * 2^96) mod 2^32` (10_state.md R28).
That these are the bits taken is the spec's own choice D20. -/
def Obligations.RoundConstantsAreCubeRoots : Prop :=
  ∀ j : Fin 64, ∃ r : Nat,
    r ^ 3 ≤ Nat.nth Nat.Prime j.val * 2 ^ 96 ∧ Nat.nth Nat.Prime j.val * 2 ^ 96 < (r + 1) ^ 3 ∧
      (K j).toNat = r % 2 ^ 32

/-- IV[i] is the first 32 bits of the fractional part of the square root of the i-th prime:
`isqrt(p_i * 2^64) mod 2^32` (10_state.md R29). -/
def Obligations.InitialValuesAreSquareRoots : Prop :=
  ∀ i : Fin 8, ∃ r : Nat,
    r ^ 2 ≤ Nat.nth Nat.Prime i.val * 2 ^ 64 ∧ Nat.nth Nat.Prime i.val * 2 ^ 64 < (r + 1) ^ 2 ∧
      (IV i).toNat = r % 2 ^ 32

/-- The schedule of a block satisfies the two equations of 41_message_scheduler.md R99, and no other
array of words does. -/
def Obligations.ScheduleSatisfiesTheRecurrence : Prop :=
  ∀ (B : Vector Byte 64) (W : Vector Word 64),
    W = schedule B ↔
      (∀ (j : Nat) (h : j < 16),
        W[j] = be32 B[4 * j] B[4 * j + 1] B[4 * j + 2] B[4 * j + 3]) ∧
      (∀ (j : Nat) (h : j < 64), 16 ≤ j →
        W[j] = W[j - 16] + smallSigma0 W[j - 15] + W[j - 7] + smallSigma1 W[j - 2])

/-! ## Padding -/

/-- `|pad(M)| = L + 1 + k + 8 = 64 N` with both forms of N, and N is at least 1 and at most
2^55 + 1 for a legal length (40_padding_controller.md R83).
For a message of 2^61 bytes or more the spec defines no padding (R89): that the model's has this
length there too is its own choice (assumption 16). -/
def Obligations.PaddedLengthIsWholeBlocks : Prop :=
  blockCount (2 ^ 61 - 1) = 2 ^ 55 + 1 ∧
  ∀ M : List Byte,
    (pad M).length = M.length + 1 + padZeros M.length + 8 ∧
    (pad M).length = 64 * blockCount M.length ∧
    blockCount M.length = (M.length + 8) / 64 + 1 ∧
    blockCount M.length = M.length / 64 + (if M.length % 64 ≤ 55 then 1 else 2) ∧
    1 ≤ blockCount M.length ∧
    (M.length ≤ 2 ^ 61 - 1 → blockCount M.length ≤ 2 ^ 55 + 1)

/-- k is the least number of zero bytes that brings the length to 56 modulo 64
(40_padding_controller.md R81).
The spec infers the formula from R80. -/
def Obligations.ZeroFillIsTheLeast : Prop :=
  ∀ L : Nat, padZeros L ≤ 63 ∧ (L + 1 + padZeros L) % 64 = 56 ∧
    (∀ k, (L + 1 + k) % 64 = 56 → padZeros L ≤ k) ∧
    (L % 64 ≤ 55 → padZeros L = 55 - L % 64) ∧ (56 ≤ L % 64 → padZeros L = 119 - L % 64)

/-- The last 8 bytes of the padded message, read big-endian, are the message length in bits
(40_padding_controller.md R82). -/
def Obligations.LengthFieldHoldsTheBitLength : Prop :=
  ∀ M : List Byte, M.length ≤ 2 ^ 61 - 1 →
    ((pad M).drop ((pad M).length - 8)).foldl (fun acc b => acc * 256 + b.toNat) 0 = 8 * M.length

/-- A message whose length modulo 64 is 56 to 63 needs one block more than one of 0 to 55 with the
same whole blocks (40_padding_controller.md R84). -/
def Obligations.LengthBoundaryAddsABlock : Prop :=
  ∀ q r : Nat,
    (r ≤ 55 → blockCount (64 * q + r) = q + 1) ∧
    (56 ≤ r → r ≤ 63 → blockCount (64 * q + r) = q + 2)

/-- The empty message is padded to one block by the general algorithm
(40_padding_controller.md R85). -/
def Obligations.EmptyMessageIsOneBlock : Prop :=
  pad [] = 0x80 :: List.replicate 63 0x00 ∧ blockCount 0 = 1

/-- PADBLK, op word 0x01, performed at AT_PAD, delivers block `blk` of the padded message of the call
into B, moves to AT_LDW 0 and touches nothing else (40_padding_controller.md R87): the 64 bytes from
`64 blk` on of the buffer of R80, cut as R86 says.
That the padded message is delivered block by block into a buffer B is the spec's own choice D4, the
op word its choice D11. -/
def Obligations.PadblkDeliversTheBlock : Prop :=
  Pos.opWord .atPad = some 0x01 ∧ decode 0x01 = .op .padblk ∧
  ∀ s : State, s.msgLen ≤ 2 ^ 61 - 1 → s.blk < blockCount s.msgLen →
    ∃ B : Vector Byte 64,
      exec .padblk s = .next { s with B := B, pos := .atLdw 0 } ∧
      B.toList = ((pad s.message).drop (64 * s.blk)).take 64

/-! ## Memory -/

/-- LAUNCH fills the message space: address p reads byte p of M for p < L and no other address exists
(20_memory.md R41); and the pairs that store it are in canonical form.
The addressed form of the message is the spec's own choice D3. That the message is held in State
(assumption 7), and that it is stored as (address, byte) pairs in canonical form, addresses rising and
no byte 0x00 listed (assumption 5), are the model's choices: R41 says nothing of pairs. -/
def Obligations.LaunchedMessageReadsBack : Prop :=
  ∀ (M : List Byte) (s t : State), launch M s = .next t →
    (∀ p, t.memRead p = M[p]?) ∧ t.msgLen = M.length ∧ t.message = M ∧
      Memory.wf t.msg = true ∧ Memory.within t.msg t.msgLen = true

/-- PADBLK for block i reads the addresses p with `64 i <= p < min(64 i + 64, L)` and no others:
two messages of one length that agree there give the same block (20_memory.md R45).
The spec infers the counts from its rules. -/
def Obligations.PadblkReadsOnlyItsOwnBytes : Prop :=
  ∀ s t : State, s.msgLen = t.msgLen → s.blk = t.blk →
    (∀ p, 64 * s.blk ≤ p → p < min (64 * s.blk + 64) s.msgLen → s.memRead p = t.memRead p) →
      ∃ B : Vector Byte 64,
        exec .padblk s = .next { s with B := B, pos := .atLdw 0 } ∧
        exec .padblk t = .next { t with B := B, pos := .atLdw 0 }

/-- The engine writes no memory: after any operation every address reads as before
(20_memory.md R48). -/
def Obligations.OperationsWriteNoMemory : Prop :=
  ∀ (i : Instr) (s t : State), exec i s = .next t → ∀ p, t.memRead p = s.memRead p

/-! ## The host -/

/-- LAUNCH at WAIT with a legal length binds M and L, sets the phase to ACCEPT so that `done` falls,
moves to AT_INIT, and leaves everything else as it was (43_hash_accumulator.md R125).
That LAUNCH is a move of the host is the spec's own choice D5. -/
def Obligations.LaunchStartsACall : Prop :=
  ∀ (M : List Byte) (s : State) (rest : List HostInput), s.pos = .wait → M.length ≤ 2 ^ 61 - 1 →
    s.hostInputs = ⟨false, some M⟩ :: rest →
      ∃ m : Memory,
        step s = .next { s with msg := m, msgLen := M.length, phase := .accept, pos := .atInit,
                                hostInputs := rest } ∧
        ∀ p, p < M.length → some (Memory.read m p) = M[p]?

/-- LAUNCH with 2^61 bytes or more is refused under the name LengthOutOfRange and gives no next
state (60_exceptions.md R141).
The refusal is the spec's own choice D9. -/
def Obligations.OverlongLaunchIsRefused : Prop :=
  ∀ (M : List Byte) (s : State) (rest : List HostInput), s.pos = .wait → 2 ^ 61 ≤ M.length →
    s.hostInputs = ⟨false, some M⟩ :: rest → step s = .refused .lengthOutOfRange

/-- LAUNCH while a call is running is no move (60_exceptions.md R153, third row).
The spec has no such move (its choice D10); the name of the refusal is the model's (assumption 9). -/
def Obligations.LaunchDuringACallIsRefused : Prop :=
  ∀ (M : List Byte) (s : State) (rest : List HostInput), s.pos ≠ .wait →
    s.hostInputs = ⟨false, some M⟩ :: rest → step s = .refused .launchWhileRunning

/-- RESET in any state, whatever the engine is doing and whether or not a LAUNCH coincides, gives the
reset state: H is IV, ACCEPT, WAIT, block 0, `done = 0`, no digest readable, no call
(70_reset_and_hazards.md R160; 60_exceptions.md R143).
RESET and its precedence are the spec's own choice D1, D13. Three points are the model's choice and
not R160's: that a..h, W, B and DG, to which the spec gives no value, hold one and the same set of
free values after every RESET (assumption 1); that the forgotten parameters are those of the empty
message (assumption 3); the refusal's name digestNotReady (assumption 15). -/
def Obligations.ResetWinsInEveryState : Prop :=
  ∀ (s : State) (input : HostInput) (rest : List HostInput),
    s.hostInputs = input :: rest → input.reset = true →
      step s = .next (resetWith rest) ∧
      (∀ i : Fin 8, (resetWith rest).H[i] = IV i) ∧ (resetWith rest).phase = .accept ∧
      (resetWith rest).pos = .wait ∧ (resetWith rest).blk = 0 ∧ (resetWith rest).done = false ∧
      (resetWith rest).readDigest = .error .digestNotReady

/-- The values 10_state.md R34 gives for the reset state. Nothing is said of a..h, W, B and DG: they
hold free values (assumption 1).
Reading the engine's creation as RESET is the spec's own choice D1, D6. -/
def Obligations.ResetStateHoldsTheSpecsValues : Prop :=
  State.reset.H[0] = 0x6a09e667 ∧ State.reset.H[1] = 0xbb67ae85 ∧ State.reset.H[2] = 0x3c6ef372 ∧
  State.reset.H[3] = 0xa54ff53a ∧ State.reset.H[4] = 0x510e527f ∧ State.reset.H[5] = 0x9b05688c ∧
  State.reset.H[6] = 0x1f83d9ab ∧ State.reset.H[7] = 0x5be0cd19 ∧
  State.reset.phase = .accept ∧ State.reset.pos = .wait ∧ State.reset.blk = 0 ∧
  State.reset.done = false

/-- The digest is readable exactly while the phase is DONE, reading gives the 32 bytes of DG, and once
`done = 1` neither DG nor `done` changes until the host launches or resets; a LAUNCH makes `done = 0`
at once (43_hash_accumulator.md R131). The premise is the control invariant, which every reachable
state meets.
The register DG and the output `done` are the spec's own choice D8. Two points are the model's: that
the read at `done = 0` is the refusal digestNotReady (assumption 15), and that an input entry in which
the host does nothing is a step that holds the state at WAIT (assumption 2), where the engine itself
has no step and holds its state (60_exceptions.md R152). -/
def Obligations.DigestIsReadableAndStableWhileDone : Prop :=
  (∀ s : State, s.done = decide (s.phase = .done)) ∧
  (∀ s : State, s.phase = .done → s.readDigest = .ok s.DG) ∧
  (∀ s : State, s.phase ≠ .done → s.readDigest = .error .digestNotReady) ∧
  (∀ s t : State, ControlInv s → s.phase = .done → HostSilent s → step s = .next t →
    t = s.popInput) ∧
  (∀ (M : List Byte) (s t : State), launch M s = .next t → t.done = false)

/-- Every transition of the phase machine (43_hash_accumulator.md R123): RESET and LAUNCH lead to
ACCEPT, FIN to DONE, every other operation keeps ACCEPT, and nothing but LAUNCH or RESET leaves
DONE. -/
def Obligations.PhaseMachineHasOneTransition : Prop :=
  ∀ s t : State, ControlInv s → step s = .next t →
    (s.turn = .reset → t.phase = .accept) ∧
    (∀ M, s.turn = .launch M → s.pos = .wait ∧ t.phase = .accept) ∧
    (∀ i, s.turn = .perform i → s.phase = .accept ∧ (t.phase = .done ↔ i = .fin)) ∧
    (s.phase = .done → t.phase = .accept → s.turn = .reset ∨ ∃ M, s.turn = .launch M) ∧
    (s.phase = .accept → t.phase = .done → s.turn = .perform .fin ∧ s.pos = .atFin)

/-! ## Invariants -/

/-- Every step keeps the control invariant (10_state.md R27, R35 items 1 to 3; 20_memory.md R41).
The spec infers the invariants of R35 from its rules. Three clauses are the model's: that the message
is stored in canonical form (assumption 5); that WAIT with ACCEPT is one single state but for the
host's inputs, since after every RESET a..h, W, B and DG hold the same free values (assumption 1) and
the forgotten parameters are those of the empty message (assumption 3); and that the parameters and
the host's inputs stand in State at all (assumptions 7 and 2). -/
def Obligations.StepsKeepTheControlInvariant : Prop :=
  ∀ s t : State, ControlInv s → step s = .next t → ControlInv t

/-- The control invariant holds right after RESET, whatever the host does next. Its clauses that are the
model's choice are named at `StepsKeepTheControlInvariant` (assumptions 1, 2, 3, 5 and 7). -/
def Obligations.ResetMeetsTheControlInvariant : Prop :=
  ∀ inputs : List HostInput, ControlInv (resetWith inputs)

/-- Every step keeps the data invariant: H, B, W and a..h hold what the call has computed so far, and
in DONE the digest is that of the message last launched (10_state.md R35 items 4 and 5).
The spec infers the invariants of R35 from its rules; the clauses for the positions within a block are
this model's own inference from 40_padding_controller.md R87, 41_message_scheduler.md R99 and
42_compress_engine.md R112. -/
def Obligations.StepsKeepTheDataInvariant : Prop :=
  ∀ s t : State, ControlInv s → DataInv s → step s = .next t → DataInv t

/-- The data invariant holds right after RESET, whatever the host does next. -/
def Obligations.ResetMeetsTheDataInvariant : Prop :=
  ∀ inputs : List HostInput, DataInv (resetWith inputs)

/-- No reachable state reads an element that nothing has written (10_state.md R32;
60_exceptions.md R154): where everything a position needs is written, the guarded step does not
fault, and it leaves everything the next position needs written.
The guard is the spec's own choice D7; that it stands beside `step` and not in it is
the model's (assumption 11). -/
def Obligations.GuardedStepsNeverReadUnwrittenState : Prop :=
  ∀ g : Guarded, WrittenInv g → ControlInv g.state →
    (∀ r, guardedStep g ≠ .fault r) ∧
    (∀ g', guardedStep g = .next g' → WrittenInv g' ∧ ControlInv g'.state) ∧
    (∀ t, step g.state = .next t → ∃ written, guardedStep g = .next ⟨t, written⟩)

/-- The guarded engine starts, right after RESET, with everything it needs at WAIT written
(10_state.md R34). -/
def Obligations.ResetMeetsTheWrittenInvariant : Prop :=
  ∀ inputs : List HostInput, WrittenInv (Guarded.reset inputs)

/-! ## The call -/

/-- One BLOCK, 131 operations from AT_PAD, leaves H equal to `compress(H, block(M, blk))` and goes to
the next block or to AT_FIN (42_compress_engine.md R113; 30_encoding.md R71).
The spec infers it from its rules. -/
def Obligations.OneBlockIsOneCompression : Prop :=
  ∀ s : State, s.pos = .atPad → s.hostInputs = [] → s.msgLen ≤ 2 ^ 61 - 1 →
    s.blk < blockCount s.msgLen →
      ∃ t, run 131 s = .next t ∧ t.H = compress s.H (block s.message s.blk) ∧
        t.msg = s.msg ∧ t.msgLen = s.msgLen ∧ t.phase = s.phase ∧ t.DG = s.DG ∧
        t.hostInputs = [] ∧
        (s.blk + 1 < blockCount s.msgLen → t.pos = .atPad ∧ t.blk = s.blk + 1) ∧
        (s.blk + 1 = blockCount s.msgLen → t.pos = .atFin ∧ t.blk = s.blk)

/-- The agreement of the grains (43_hash_accumulator.md R127): from the launch of any legal message in
any state at WAIT, after `1 + 131 i` steps the engine is at AT_PAD with `blk = i` and `H = H_i`, after
`1 + 131 N` steps at AT_FIN with `H = H_N`, after `2 + 131 N` steps at WAIT, DONE, with
`DG = sha256(M)`.
The spec infers the agreement from its rules. -/
def Obligations.CallComputesTheDigest : Prop :=
  ∀ (M : List Byte) (s : State), M.length ≤ 2 ^ 61 - 1 → s.pos = .wait → s.hostInputs = [] →
    ∃ s0, launch M s = .next s0 ∧
      (∀ i, i < blockCount M.length →
        ∃ t, run (1 + 131 * i) s0 = .next t ∧ t.pos = .atPad ∧ t.blk = i ∧ t.H = hashAfter M i) ∧
      (∃ t, run (1 + 131 * blockCount M.length) s0 = .next t ∧ t.pos = .atFin ∧
        t.H = hashAfter M (blockCount M.length)) ∧
      (∃ t, run (2 + 131 * blockCount M.length) s0 = .next t ∧ t.pos = .wait ∧ t.phase = .done ∧
        t.readDigest = .ok (sha256 M) ∧ t.H = hashAfter M (blockCount M.length) ∧
        t.blk = blockCount M.length - 1)

/-- A call leaves no residue (43_hash_accumulator.md R126, R130): launched with the same message in any
two states at WAIT, whatever an earlier call or RESET left in them, the engine ends in the very same
state: WAIT, DONE, `DG = sha256(M)`, `H = H_N`, `blk = N - 1`, and in B, W and a..h the leftovers of the
last block. -/
def Obligations.CallLeavesNoResidue : Prop :=
  ∀ (M : List Byte) (s t s0 t0 : State), s.hostInputs = [] → t.hostInputs = [] →
    launch M s = .next s0 → launch M t = .next t0 →
      ∃ (u : State) (last : Vector Byte 64),
        run (2 + 131 * blockCount M.length) s0 = .next u ∧
        run (2 + 131 * blockCount M.length) t0 = .next u ∧
        u.pos = .wait ∧ u.phase = .done ∧ u.DG = sha256 M ∧
        u.H = hashAfter M (blockCount M.length) ∧ u.blk = blockCount M.length - 1 ∧
        last = block M (blockCount M.length - 1) ∧ u.B = last ∧ u.W = schedule last ∧
        u.v = rounds (Vars.ofHash (hashAfter M (blockCount M.length - 1))) (schedule last)

/-- A call performs exactly INIT, N times BLOCK, FIN, which is `2 + 131 N` operations
(30_encoding.md R70, R71; 43_hash_accumulator.md R132). -/
def Obligations.CallPerformsTheHashSequence : Prop :=
  ∀ (M : List Byte) (s s0 : State), s.hostInputs = [] → launch M s = .next s0 →
    opsOf (2 + 131 * blockCount M.length) s0 = hashOps (blockCount M.length) ∧
      (hashOps (blockCount M.length)).length = 2 + 131 * blockCount M.length

/-- During a call the engine reads each address of the message exactly once, in strictly increasing
order, and no other (20_memory.md R45); which bytes PADBLK depends on is
`PadblkReadsOnlyItsOwnBytes`.
The spec infers the counts from its rules. -/
def Obligations.MessageIsReadOnceInOrder : Prop :=
  ∀ (M : List Byte) (s s0 : State), s.hostInputs = [] → launch M s = .next s0 →
    messageReads (2 + 131 * blockCount M.length) s0 = List.range M.length

/-- A call is over after `2 + 131 N` steps and at no other time: before that the engine is not at WAIT
and shows `done = 0` (43_hash_accumulator.md R135). -/
def Obligations.CallIsOverOnlyAtItsEnd : Prop :=
  ∀ (M : List Byte) (s s0 : State), s.hostInputs = [] → launch M s = .next s0 →
    (∀ n, n < 2 + 131 * blockCount M.length →
      ∃ t, run n s0 = .next t ∧ t.pos ≠ .wait ∧ t.phase = .accept ∧ t.done = false) ∧
    (∃ t, run (2 + 131 * blockCount M.length) s0 = .next t ∧ t.pos = .wait ∧ t.phase = .done)

/-- Several engines: a step of one changes no other, and steps of two different engines give the same
system in either order (20_memory.md R51; 60_exceptions.md R150).
The product is the spec's own choice D17. -/
def Obligations.EnginesAreIndependent : Prop :=
  ∀ (n : Nat) (S T : System n) (k l : Fin n), k ≠ l → S.stepAt k = .next T →
    T[l] = S[l] ∧ step S[k] = .next T[k] ∧
      ∀ U, T.stepAt l = .next U → ∃ V, S.stepAt l = .next V ∧ V.stepAt k = .next U

/-! ## The host's guarded read -/

/-- The host's read of the digest is guarded too (60_exceptions.md R154; 93_implementation_defined.md
U5 names DG among the elements). At `done = 1` it faults when nothing has written one of the bytes of
DG; at `done = 0` it is refused and reads nothing (43_hash_accumulator.md R131); and in a state that
meets the written and the control invariant, and after every guarded step from one, it never faults
and answers what the unguarded read answers.
The guard is the spec's own choice D7; that it stands beside the read, and the refusal's name
digestNotReady, are the model's (assumptions 11 and 15). -/
def Obligations.GuardedDigestReadNeverMeetsUnwrittenState : Prop :=
  (∀ g : Guarded, g.state.phase = .done → (∃ x ∈ allDG, x ∉ g.written) →
    guardedReadDigest g = .fault .readOfUnwrittenState) ∧
  (∀ g : Guarded, g.state.phase ≠ .done → guardedReadDigest g = .refused .digestNotReady) ∧
  (∀ g g' : Guarded, WrittenInv g → ControlInv g.state → (g' = g ∨ guardedStep g = .next g') →
    (∀ r, guardedReadDigest g' ≠ .fault r) ∧
    ∀ digest, guardedReadDigest g' = .next digest ↔ g'.state.readDigest = .ok digest)
end

