-- ==== Sys2Proof/Laws/Digest.lean ====
section
/-! SUPPORT. The schedule grows entry by entry, and an entry once computed stays. -/

namespace Sys2Proof.Machine

/-- Computing entry `j` leaves the other entries as they were. -/
theorem scheduleEntry_ne (B : Vector Byte 64) (W : Vector Word 64) {i j : Fin 64} (h : i ≠ j) :
    (scheduleEntry B W j)[i] = W[i] := by
  unfold scheduleEntry
  simp only [Fin.getElem_fin]
  split <;> exact Vector.getElem_set_ne _ _ fun e => h (Fin.ext e.symm)

/-- One more entry of the schedule. -/
theorem scheduleTo_succ (B : Vector Byte 64) (W : Vector Word 64) (n : Nat) (h : n < 64) :
    scheduleTo B W (n + 1) = scheduleEntry B (scheduleTo B W n) ⟨n, h⟩ := by
  simp [scheduleTo, h]

/-- The first `n` entries do not change when more are computed. -/
theorem scheduleTo_stable (B : Vector Byte 64) (W : Vector Word 64) (n m : Nat) (hnm : n ≤ m)
    (hm : m ≤ 64) (i : Fin 64) (hi : i.val < n) : (scheduleTo B W m)[i] = (scheduleTo B W n)[i] := by
  induction m, hnm using Nat.le_induction with
  | base => rfl
  | succ m hnm ih =>
    rw [scheduleTo_succ B W m (by omega), scheduleEntry_ne, ih (by omega)]
    intro h
    rw [h] at hi
    simp at hi
    omega

/-- One more round. -/
theorem roundsTo_succ (v : Vars) (W : Vector Word 64) (n : Nat) (h : n < 64) :
    roundsTo v W (n + 1) = oneRound (roundsTo v W n) (K ⟨n, h⟩) W[n] := by
  simp [roundsTo, h]

end Sys2Proof.Machine
end

