-- ==== Sys2Proof/Laws/State.lean ====
section
/-! SUPPORT. One lemma for each field of the state after each named update. -/

namespace Sys2Proof.Machine

/-! `State.setHash` writes the field `H` only. -/

@[simp] theorem State.setHash_H (s : State) (H : Vector Word 8) : (s.setHash H).H = H := rfl
@[simp] theorem State.setHash_v (s : State) (H : Vector Word 8) : (s.setHash H).v = s.v := rfl
@[simp] theorem State.setHash_W (s : State) (H : Vector Word 8) : (s.setHash H).W = s.W := rfl
@[simp] theorem State.setHash_B (s : State) (H : Vector Word 8) : (s.setHash H).B = s.B := rfl
@[simp] theorem State.setHash_DG (s : State) (H : Vector Word 8) : (s.setHash H).DG = s.DG := rfl
@[simp] theorem State.setHash_phase (s : State) (H : Vector Word 8) : (s.setHash H).phase = s.phase := rfl
@[simp] theorem State.setHash_pos (s : State) (H : Vector Word 8) : (s.setHash H).pos = s.pos := rfl
@[simp] theorem State.setHash_blk (s : State) (H : Vector Word 8) : (s.setHash H).blk = s.blk := rfl
@[simp] theorem State.setHash_msg (s : State) (H : Vector Word 8) : (s.setHash H).msg = s.msg := rfl
@[simp] theorem State.setHash_msgLen (s : State) (H : Vector Word 8) : (s.setHash H).msgLen = s.msgLen := rfl
@[simp] theorem State.setHash_hostInputs (s : State) (H : Vector Word 8) : (s.setHash H).hostInputs = s.hostInputs := rfl

/-! `State.setVars` writes the field `v` only. -/

@[simp] theorem State.setVars_H (s : State) (v : Vars) : (s.setVars v).H = s.H := rfl
@[simp] theorem State.setVars_v (s : State) (v : Vars) : (s.setVars v).v = v := rfl
@[simp] theorem State.setVars_W (s : State) (v : Vars) : (s.setVars v).W = s.W := rfl
@[simp] theorem State.setVars_B (s : State) (v : Vars) : (s.setVars v).B = s.B := rfl
@[simp] theorem State.setVars_DG (s : State) (v : Vars) : (s.setVars v).DG = s.DG := rfl
@[simp] theorem State.setVars_phase (s : State) (v : Vars) : (s.setVars v).phase = s.phase := rfl
@[simp] theorem State.setVars_pos (s : State) (v : Vars) : (s.setVars v).pos = s.pos := rfl
@[simp] theorem State.setVars_blk (s : State) (v : Vars) : (s.setVars v).blk = s.blk := rfl
@[simp] theorem State.setVars_msg (s : State) (v : Vars) : (s.setVars v).msg = s.msg := rfl
@[simp] theorem State.setVars_msgLen (s : State) (v : Vars) : (s.setVars v).msgLen = s.msgLen := rfl
@[simp] theorem State.setVars_hostInputs (s : State) (v : Vars) : (s.setVars v).hostInputs = s.hostInputs := rfl

/-! `State.setWord` writes the field `W` only. -/

@[simp] theorem State.setWord_H (s : State) (j : Fin 64) (x : Word) : (s.setWord j x).H = s.H := rfl
@[simp] theorem State.setWord_v (s : State) (j : Fin 64) (x : Word) : (s.setWord j x).v = s.v := rfl
@[simp] theorem State.setWord_W (s : State) (j : Fin 64) (x : Word) : (s.setWord j x).W = s.W.set j.val x := rfl
@[simp] theorem State.setWord_B (s : State) (j : Fin 64) (x : Word) : (s.setWord j x).B = s.B := rfl
@[simp] theorem State.setWord_DG (s : State) (j : Fin 64) (x : Word) : (s.setWord j x).DG = s.DG := rfl
@[simp] theorem State.setWord_phase (s : State) (j : Fin 64) (x : Word) : (s.setWord j x).phase = s.phase := rfl
@[simp] theorem State.setWord_pos (s : State) (j : Fin 64) (x : Word) : (s.setWord j x).pos = s.pos := rfl
@[simp] theorem State.setWord_blk (s : State) (j : Fin 64) (x : Word) : (s.setWord j x).blk = s.blk := rfl
@[simp] theorem State.setWord_msg (s : State) (j : Fin 64) (x : Word) : (s.setWord j x).msg = s.msg := rfl
@[simp] theorem State.setWord_msgLen (s : State) (j : Fin 64) (x : Word) : (s.setWord j x).msgLen = s.msgLen := rfl
@[simp] theorem State.setWord_hostInputs (s : State) (j : Fin 64) (x : Word) : (s.setWord j x).hostInputs = s.hostInputs := rfl

/-! `State.setBlock` writes the field `B` only. -/

@[simp] theorem State.setBlock_H (s : State) (B : Vector Byte 64) : (s.setBlock B).H = s.H := rfl
@[simp] theorem State.setBlock_v (s : State) (B : Vector Byte 64) : (s.setBlock B).v = s.v := rfl
@[simp] theorem State.setBlock_W (s : State) (B : Vector Byte 64) : (s.setBlock B).W = s.W := rfl
@[simp] theorem State.setBlock_B (s : State) (B : Vector Byte 64) : (s.setBlock B).B = B := rfl
@[simp] theorem State.setBlock_DG (s : State) (B : Vector Byte 64) : (s.setBlock B).DG = s.DG := rfl
@[simp] theorem State.setBlock_phase (s : State) (B : Vector Byte 64) : (s.setBlock B).phase = s.phase := rfl
@[simp] theorem State.setBlock_pos (s : State) (B : Vector Byte 64) : (s.setBlock B).pos = s.pos := rfl
@[simp] theorem State.setBlock_blk (s : State) (B : Vector Byte 64) : (s.setBlock B).blk = s.blk := rfl
@[simp] theorem State.setBlock_msg (s : State) (B : Vector Byte 64) : (s.setBlock B).msg = s.msg := rfl
@[simp] theorem State.setBlock_msgLen (s : State) (B : Vector Byte 64) : (s.setBlock B).msgLen = s.msgLen := rfl
@[simp] theorem State.setBlock_hostInputs (s : State) (B : Vector Byte 64) : (s.setBlock B).hostInputs = s.hostInputs := rfl

/-! `State.setDigest` writes the field `DG` only. -/

@[simp] theorem State.setDigest_H (s : State) (DG : Vector Byte 32) : (s.setDigest DG).H = s.H := rfl
@[simp] theorem State.setDigest_v (s : State) (DG : Vector Byte 32) : (s.setDigest DG).v = s.v := rfl
@[simp] theorem State.setDigest_W (s : State) (DG : Vector Byte 32) : (s.setDigest DG).W = s.W := rfl
@[simp] theorem State.setDigest_B (s : State) (DG : Vector Byte 32) : (s.setDigest DG).B = s.B := rfl
@[simp] theorem State.setDigest_DG (s : State) (DG : Vector Byte 32) : (s.setDigest DG).DG = DG := rfl
@[simp] theorem State.setDigest_phase (s : State) (DG : Vector Byte 32) : (s.setDigest DG).phase = s.phase := rfl
@[simp] theorem State.setDigest_pos (s : State) (DG : Vector Byte 32) : (s.setDigest DG).pos = s.pos := rfl
@[simp] theorem State.setDigest_blk (s : State) (DG : Vector Byte 32) : (s.setDigest DG).blk = s.blk := rfl
@[simp] theorem State.setDigest_msg (s : State) (DG : Vector Byte 32) : (s.setDigest DG).msg = s.msg := rfl
@[simp] theorem State.setDigest_msgLen (s : State) (DG : Vector Byte 32) : (s.setDigest DG).msgLen = s.msgLen := rfl
@[simp] theorem State.setDigest_hostInputs (s : State) (DG : Vector Byte 32) : (s.setDigest DG).hostInputs = s.hostInputs := rfl

/-! `State.setPhase` writes the field `phase` only. -/

@[simp] theorem State.setPhase_H (s : State) (p : Phase) : (s.setPhase p).H = s.H := rfl
@[simp] theorem State.setPhase_v (s : State) (p : Phase) : (s.setPhase p).v = s.v := rfl
@[simp] theorem State.setPhase_W (s : State) (p : Phase) : (s.setPhase p).W = s.W := rfl
@[simp] theorem State.setPhase_B (s : State) (p : Phase) : (s.setPhase p).B = s.B := rfl
@[simp] theorem State.setPhase_DG (s : State) (p : Phase) : (s.setPhase p).DG = s.DG := rfl
@[simp] theorem State.setPhase_phase (s : State) (p : Phase) : (s.setPhase p).phase = p := rfl
@[simp] theorem State.setPhase_pos (s : State) (p : Phase) : (s.setPhase p).pos = s.pos := rfl
@[simp] theorem State.setPhase_blk (s : State) (p : Phase) : (s.setPhase p).blk = s.blk := rfl
@[simp] theorem State.setPhase_msg (s : State) (p : Phase) : (s.setPhase p).msg = s.msg := rfl
@[simp] theorem State.setPhase_msgLen (s : State) (p : Phase) : (s.setPhase p).msgLen = s.msgLen := rfl
@[simp] theorem State.setPhase_hostInputs (s : State) (p : Phase) : (s.setPhase p).hostInputs = s.hostInputs := rfl

/-! `State.setPos` writes the field `pos` only. -/

@[simp] theorem State.setPos_H (s : State) (p : Pos) : (s.setPos p).H = s.H := rfl
@[simp] theorem State.setPos_v (s : State) (p : Pos) : (s.setPos p).v = s.v := rfl
@[simp] theorem State.setPos_W (s : State) (p : Pos) : (s.setPos p).W = s.W := rfl
@[simp] theorem State.setPos_B (s : State) (p : Pos) : (s.setPos p).B = s.B := rfl
@[simp] theorem State.setPos_DG (s : State) (p : Pos) : (s.setPos p).DG = s.DG := rfl
@[simp] theorem State.setPos_phase (s : State) (p : Pos) : (s.setPos p).phase = s.phase := rfl
@[simp] theorem State.setPos_pos (s : State) (p : Pos) : (s.setPos p).pos = p := rfl
@[simp] theorem State.setPos_blk (s : State) (p : Pos) : (s.setPos p).blk = s.blk := rfl
@[simp] theorem State.setPos_msg (s : State) (p : Pos) : (s.setPos p).msg = s.msg := rfl
@[simp] theorem State.setPos_msgLen (s : State) (p : Pos) : (s.setPos p).msgLen = s.msgLen := rfl
@[simp] theorem State.setPos_hostInputs (s : State) (p : Pos) : (s.setPos p).hostInputs = s.hostInputs := rfl

/-! `State.setBlk` writes the field `blk` only. -/

@[simp] theorem State.setBlk_H (s : State) (n : Nat) : (s.setBlk n).H = s.H := rfl
@[simp] theorem State.setBlk_v (s : State) (n : Nat) : (s.setBlk n).v = s.v := rfl
@[simp] theorem State.setBlk_W (s : State) (n : Nat) : (s.setBlk n).W = s.W := rfl
@[simp] theorem State.setBlk_B (s : State) (n : Nat) : (s.setBlk n).B = s.B := rfl
@[simp] theorem State.setBlk_DG (s : State) (n : Nat) : (s.setBlk n).DG = s.DG := rfl
@[simp] theorem State.setBlk_phase (s : State) (n : Nat) : (s.setBlk n).phase = s.phase := rfl
@[simp] theorem State.setBlk_pos (s : State) (n : Nat) : (s.setBlk n).pos = s.pos := rfl
@[simp] theorem State.setBlk_blk (s : State) (n : Nat) : (s.setBlk n).blk = n := rfl
@[simp] theorem State.setBlk_msg (s : State) (n : Nat) : (s.setBlk n).msg = s.msg := rfl
@[simp] theorem State.setBlk_msgLen (s : State) (n : Nat) : (s.setBlk n).msgLen = s.msgLen := rfl
@[simp] theorem State.setBlk_hostInputs (s : State) (n : Nat) : (s.setBlk n).hostInputs = s.hostInputs := rfl

/-! `State.popInput` writes the field `hostInputs` only. -/

@[simp] theorem State.popInput_H (s : State) : (s.popInput).H = s.H := rfl
@[simp] theorem State.popInput_v (s : State) : (s.popInput).v = s.v := rfl
@[simp] theorem State.popInput_W (s : State) : (s.popInput).W = s.W := rfl
@[simp] theorem State.popInput_B (s : State) : (s.popInput).B = s.B := rfl
@[simp] theorem State.popInput_DG (s : State) : (s.popInput).DG = s.DG := rfl
@[simp] theorem State.popInput_phase (s : State) : (s.popInput).phase = s.phase := rfl
@[simp] theorem State.popInput_pos (s : State) : (s.popInput).pos = s.pos := rfl
@[simp] theorem State.popInput_blk (s : State) : (s.popInput).blk = s.blk := rfl
@[simp] theorem State.popInput_msg (s : State) : (s.popInput).msg = s.msg := rfl
@[simp] theorem State.popInput_msgLen (s : State) : (s.popInput).msgLen = s.msgLen := rfl
@[simp] theorem State.popInput_hostInputs (s : State) : (s.popInput).hostInputs = s.hostInputs.tail := rfl

/-! What follows from the parameters of the call alone is the same after every update. -/

@[simp] theorem State.setHash_blocks (s : State) (H : Vector Word 8) : (s.setHash H).blocks = s.blocks := rfl
@[simp] theorem State.setHash_message (s : State) (H : Vector Word 8) : (s.setHash H).message = s.message := rfl
@[simp] theorem State.setVars_blocks (s : State) (v : Vars) : (s.setVars v).blocks = s.blocks := rfl
@[simp] theorem State.setVars_message (s : State) (v : Vars) : (s.setVars v).message = s.message := rfl
@[simp] theorem State.setWord_blocks (s : State) (j : Fin 64) (x : Word) : (s.setWord j x).blocks = s.blocks := rfl
@[simp] theorem State.setWord_message (s : State) (j : Fin 64) (x : Word) : (s.setWord j x).message = s.message := rfl
@[simp] theorem State.setBlock_blocks (s : State) (B : Vector Byte 64) : (s.setBlock B).blocks = s.blocks := rfl
@[simp] theorem State.setBlock_message (s : State) (B : Vector Byte 64) : (s.setBlock B).message = s.message := rfl
@[simp] theorem State.setDigest_blocks (s : State) (DG : Vector Byte 32) : (s.setDigest DG).blocks = s.blocks := rfl
@[simp] theorem State.setDigest_message (s : State) (DG : Vector Byte 32) : (s.setDigest DG).message = s.message := rfl
@[simp] theorem State.setPhase_blocks (s : State) (p : Phase) : (s.setPhase p).blocks = s.blocks := rfl
@[simp] theorem State.setPhase_message (s : State) (p : Phase) : (s.setPhase p).message = s.message := rfl
@[simp] theorem State.setPos_blocks (s : State) (p : Pos) : (s.setPos p).blocks = s.blocks := rfl
@[simp] theorem State.setPos_message (s : State) (p : Pos) : (s.setPos p).message = s.message := rfl
@[simp] theorem State.setBlk_blocks (s : State) (n : Nat) : (s.setBlk n).blocks = s.blocks := rfl
@[simp] theorem State.setBlk_message (s : State) (n : Nat) : (s.setBlk n).message = s.message := rfl
@[simp] theorem State.popInput_blocks (s : State) : (s.popInput).blocks = s.blocks := rfl
@[simp] theorem State.popInput_message (s : State) : (s.popInput).message = s.message := rfl

end Sys2Proof.Machine
end

