-- ==== Sys2Proof/Laws/Memory.lean ====
section
/-! SUPPORT. Laws of the message space: storing a byte sequence and reading it back, and the canonical
form of what is stored. -/

namespace Sys2Proof.Machine

/-- Below the first stored address every address reads as unlisted. -/
theorem Memory.read_ofBytesFrom_below (M : List Byte) :
    ∀ lo p : Nat, p < lo → Memory.read (Memory.ofBytesFrom lo M) p = Memory.unlisted := by
  induction M with
  | nil => intro lo p _; rfl
  | cons b bs ih =>
    intro lo p hp
    unfold ofBytesFrom
    split
    · exact ih (lo + 1) p (by omega)
    · unfold read
      rw [if_neg (by omega)]
      exact ih (lo + 1) p (by omega)

/-- Reading back a stored byte sequence. -/
theorem Memory.read_ofBytesFrom (M : List Byte) :
    ∀ lo p : Nat, lo ≤ p →
      Memory.read (Memory.ofBytesFrom lo M) p = M.getD (p - lo) Memory.unlisted := by
  induction M with
  | nil => intro lo p _; rfl
  | cons b bs ih =>
    intro lo p hp
    by_cases hlo : lo = p
    · subst hlo
      unfold ofBytesFrom
      split
      · rename_i hb
        rw [read_ofBytesFrom_below bs (lo + 1) lo (by omega)]
        simp [hb]
      · simp [read]
    · have hsub : p - lo = (p - (lo + 1)) + 1 := by omega
      unfold ofBytesFrom
      split
      · rw [ih (lo + 1) p (by omega), hsub, List.getD_cons_succ]
      · unfold read
        rw [if_neg hlo, ih (lo + 1) p (by omega), hsub, List.getD_cons_succ]

/-- Address `p` of a launched message reads byte `p` of it. -/
theorem Memory.read_ofBytes (M : List Byte) (p : Nat) :
    Memory.read (Memory.ofBytes M) p = M.getD p Memory.unlisted :=
  read_ofBytesFrom M 0 p (Nat.zero_le p)

/-- A canonical memory stays one when the bound on its first address is lowered. -/
theorem Memory.canonicalFrom_mono (m : Memory) {lo lo' : Nat} (h : lo' ≤ lo)
    (hm : Memory.canonicalFrom lo m = true) : Memory.canonicalFrom lo' m = true := by
  cases m with
  | nil => rfl
  | cons c m =>
    obtain ⟨a, b⟩ := c
    simp only [canonicalFrom, Bool.and_eq_true, decide_eq_true_eq] at hm ⊢
    exact ⟨⟨by omega, hm.1.2⟩, hm.2⟩

/-- Storing a byte sequence gives the canonical form. -/
theorem Memory.canonicalFrom_ofBytesFrom (M : List Byte) :
    ∀ lo : Nat, Memory.canonicalFrom lo (Memory.ofBytesFrom lo M) = true := by
  induction M with
  | nil => intro lo; rfl
  | cons b bs ih =>
    intro lo
    unfold ofBytesFrom
    split
    · exact canonicalFrom_mono _ (Nat.le_succ lo) (ih (lo + 1))
    · rename_i hb
      simp only [canonicalFrom, Bool.and_eq_true, decide_eq_true_eq]
      exact ⟨⟨Nat.le_refl lo, hb⟩, ih (lo + 1)⟩

/-- A launched message is stored in canonical form. -/
theorem Memory.wf_ofBytes (M : List Byte) : Memory.wf (Memory.ofBytes M) = true :=
  canonicalFrom_ofBytesFrom M 0

/-- Every stored address lies within the sequence. -/
theorem Memory.within_ofBytesFrom (M : List Byte) :
    ∀ lo L : Nat, lo + M.length ≤ L → Memory.within (Memory.ofBytesFrom lo M) L = true := by
  induction M with
  | nil => intro lo L _; rfl
  | cons b bs ih =>
    intro lo L hL
    simp only [List.length_cons] at hL
    unfold ofBytesFrom
    split
    · exact ih (lo + 1) L (by omega)
    · simp only [within, List.all_cons, Bool.and_eq_true, decide_eq_true_eq]
      exact ⟨by omega, ih (lo + 1) L (by omega)⟩

/-- A launched message holds no address at or beyond its length. -/
theorem Memory.within_ofBytes (M : List Byte) :
    Memory.within (Memory.ofBytes M) M.length = true :=
  within_ofBytesFrom M 0 M.length (by omega)

/-- The message space right after RESET is in canonical form. -/
theorem State.reset_msg_wf : Memory.wf State.reset.msg = true := rfl

/-- Two states with the same parameters of the call read every address alike. -/
theorem State.memRead_congr {s t : State} (hm : s.msg = t.msg) (hL : s.msgLen = t.msgLen) (p : Nat) :
    s.memRead p = t.memRead p := by
  simp only [memRead, hm, hL]

/-- An address of the message reads the byte of the message. -/
theorem State.memRead_eq_message (s : State) (p : Nat) : s.memRead p = s.message[p]? := by
  unfold memRead message
  by_cases h : p < s.msgLen
  · simp [h]
  · simp [h]

/-- The message has the length of the call. -/
@[simp] theorem State.message_length (s : State) : s.message.length = s.msgLen := by
  simp [message]

end Sys2Proof.Machine
end

