-- ==== Sys2Proof/Laws/Exec.lean ====
section
/-! SUPPORT. Each meaning as the next state it answers, and what the shared operations LAUNCH, RESET
and the advance to the next block can do. -/

namespace Sys2Proof.Machine

/-- After ACC the engine is at the next block or at FIN; only `blk` and `pos` can have changed. -/
theorem State.advanceBlock_cases (s : State) :
    (s.blk + 1 < s.blocks ∧ s.advanceBlock = { s with blk := s.blk + 1, pos := .atPad }) ∨
      (s.blocks ≤ s.blk + 1 ∧ s.advanceBlock = { s with pos := .atFin }) := by
  unfold advanceBlock
  split
  · exact .inl ⟨‹_›, rfl⟩
  · exact .inr ⟨by omega, rfl⟩

theorem exec_init (s : State) :
    exec .init s =
      .next { s with H := initialHash, blk := 0, phase := .accept, pos := .atPad } := by
  simp only [exec, execInit, State.setHash, State.setBlk, State.setPhase, State.setPos]

theorem exec_padblk (s : State) :
    exec .padblk s = .next { s with B := s.padBlock s.blk, pos := .atLdw 0 } := by
  simp only [exec, execPadblk, State.setBlock, State.setPos]

theorem exec_ldv (s : State) :
    exec .ldv s = .next { s with v := Vars.ofHash s.H, pos := .atRnd 0 } := by
  simp only [exec, execLdv, State.setVars, State.setPos]

theorem exec_rnd (j : Fin 64) (s : State) :
    exec (.rnd j) s = .next { s with v := oneRound s.v (K j) s.W[j], pos := nextAfterRnd j } := by
  simp only [exec, execRnd, State.setVars, State.setPos]

theorem exec_acc (s : State) :
    exec .acc s = .next (s.setHash (addVars s.H s.v)).advanceBlock := by
  simp only [exec, execAcc]

theorem exec_fin (s : State) :
    exec .fin s = .next { s with DG := digestBytes s.H, phase := .done, pos := .wait } := by
  simp only [exec, execFin, State.setDigest, State.setPhase, State.setPos]

theorem exec_ldw (j : Fin 64) (s : State) (h : j.val < 16) :
    exec (.ldw j) s =
      .next { s with W := s.W.set j.val (loadWord s.B j.val h), pos := nextAfterLdw j } := by
  simp only [exec, execLdw, dif_pos h, State.setWord, State.setPos]

theorem exec_exw (j : Fin 64) (s : State) (h : 16 ≤ j.val) :
    exec (.exw j) s =
      .next { s with W := s.W.set j.val (expandWord s.W j.val h j.isLt), pos := nextAfterExw j } := by
  simp only [exec, execExw, dif_pos h, State.setWord, State.setPos]

theorem exec_ldw_reserved (j : Fin 64) (s : State) (h : 16 ≤ j.val) :
    exec (.ldw j) s = .fault .reservedOpWord := by
  simp only [exec, execLdw, dif_neg (Nat.not_lt.mpr h)]

theorem exec_exw_reserved (j : Fin 64) (s : State) (h : j.val < 16) :
    exec (.exw j) s = .fault .reservedOpWord := by
  simp only [exec, execExw, dif_neg (Nat.not_le.mpr h)]

/-- Everything an operation can do: one case for each, with the next state whole. -/
theorem exec_cases {i : Instr} {s t : State} (h : exec i s = .next t) :
    (i = .init ∧ t = { s with H := initialHash, blk := 0, phase := .accept, pos := .atPad }) ∨
    (i = .padblk ∧ t = { s with B := s.padBlock s.blk, pos := .atLdw 0 }) ∨
    (i = .ldv ∧ t = { s with v := Vars.ofHash s.H, pos := .atRnd 0 }) ∨
    (i = .acc ∧ t = (s.setHash (addVars s.H s.v)).advanceBlock) ∨
    (i = .fin ∧ t = { s with DG := digestBytes s.H, phase := .done, pos := .wait }) ∨
    (∃ j, ∃ hj : j.val < 16, i = .ldw j ∧
      t = { s with W := s.W.set j.val (loadWord s.B j.val hj), pos := nextAfterLdw j }) ∨
    (∃ j, ∃ hj : 16 ≤ j.val, i = .exw j ∧
      t = { s with W := s.W.set j.val (expandWord s.W j.val hj j.isLt), pos := nextAfterExw j }) ∨
    (∃ j, i = .rnd j ∧ t = { s with v := oneRound s.v (K j) s.W[j], pos := nextAfterRnd j }) := by
  cases i with
  | init => exact .inl ⟨rfl, (Host.Outcome.next.inj ((exec_init s).symm.trans h)).symm⟩
  | padblk => exact .inr (.inl ⟨rfl, (Host.Outcome.next.inj ((exec_padblk s).symm.trans h)).symm⟩)
  | ldv =>
    exact .inr (.inr (.inl ⟨rfl, (Host.Outcome.next.inj ((exec_ldv s).symm.trans h)).symm⟩))
  | acc =>
    exact .inr (.inr (.inr (.inl ⟨rfl, (Host.Outcome.next.inj ((exec_acc s).symm.trans h)).symm⟩)))
  | fin =>
    exact .inr (.inr (.inr (.inr (.inl
      ⟨rfl, (Host.Outcome.next.inj ((exec_fin s).symm.trans h)).symm⟩))))
  | ldw j =>
    by_cases hj : j.val < 16
    · exact .inr (.inr (.inr (.inr (.inr (.inl
        ⟨j, hj, rfl, (Host.Outcome.next.inj ((exec_ldw j s hj).symm.trans h)).symm⟩)))))
    · rw [exec_ldw_reserved j s (by omega)] at h; cases h
  | exw j =>
    by_cases hj : 16 ≤ j.val
    · exact .inr (.inr (.inr (.inr (.inr (.inr (.inl
        ⟨j, hj, rfl, (Host.Outcome.next.inj ((exec_exw j s hj).symm.trans h)).symm⟩))))))
    · rw [exec_exw_reserved j s (by omega)] at h; cases h
  | rnd j =>
    exact .inr (.inr (.inr (.inr (.inr (.inr (.inr
      ⟨j, rfl, (Host.Outcome.next.inj ((exec_rnd j s).symm.trans h)).symm⟩))))))

/-- LAUNCH answers a next state exactly at WAIT with a legal length, and this one. -/
theorem launch_eq_next_iff {M : List Byte} {s t : State} :
    launch M s = .next t ↔
      s.pos = .wait ∧ M.length ≤ Config.maxLenBytes ∧
        t = { s with msg := Memory.ofBytes M, msgLen := M.length, phase := .accept,
                     pos := .atInit } := by
  unfold launch
  split
  · rename_i h; simp [h]
  · rename_i h
    have h : s.pos = .wait := not_not.mp h
    split
    · simp [h]; omega
    · simp only [Host.Outcome.next.injEq]
      exact ⟨fun e => ⟨h, by omega, e.symm⟩, fun e => e.2.2.symm⟩

end Sys2Proof.Machine
end

