-- ==== Sys2Proof/Laws/Guard.lean ====
section
/-! SUPPORT. When an answer of the guarded machine is given and when it faults
(60_exceptions.md R154). -/

namespace Sys2Proof.Safety

open Sys2Proof.Machine

/-- Where everything the answer rests on is written, the guard gives the answer. -/
theorem Guarded.reading_of_written {α : Type} {g : Guarded} {reads : List Element}
    (h : ∀ x ∈ reads, x ∈ g.written) (answer : Host.Outcome α Fault Refusal) :
    g.reading reads answer = answer := by
  rw [reading, if_pos (by simpa using h)]

/-- Where an element the answer rests on is not written, the guard faults. -/
theorem Guarded.reading_of_unwritten {α : Type} {g : Guarded} {reads : List Element}
    (h : ∃ x ∈ reads, x ∉ g.written) (answer : Host.Outcome α Fault Refusal) :
    g.reading reads answer = .fault .readOfUnwrittenState := by
  rw [reading, if_neg (by simpa using h)]

/-- The guard never gives a value of its own. -/
theorem Guarded.reading_eq_next_iff {α : Type} {g : Guarded} {reads : List Element}
    {answer : Host.Outcome α Fault Refusal} {a : α} :
    g.reading reads answer = .next a ↔ (∀ x ∈ reads, x ∈ g.written) ∧ answer = .next a := by
  by_cases h : ∀ x ∈ reads, x ∈ g.written
  · rw [reading_of_written h]
    exact (and_iff_right h).symm
  · rw [reading_of_unwritten (by simpa using h)]
    simp [h]

end Sys2Proof.Safety
end

