-- ==== Sys2Proof/Laws/Padding.lean ====
section
/-! SUPPORT. The padding: the length equation, what a padding byte depends on, and that the bytewise
form is the padded message. -/

namespace Sys2Proof.Machine

/-- A padding byte depends on the length and on the message byte at its own address only. -/
theorem State.padByte_congr {s t : State} {p : Nat} (hm : s.memRead p = t.memRead p)
    (hL : s.msgLen = t.msgLen) : s.padByte p = t.padByte p := by
  have hN : s.blocks = t.blocks := by simp only [State.blocks, hL]
  unfold padByte
  rw [hm, hN, hL]

/-- Message, marker, zero bytes and length field fill whole blocks (40_padding_controller.md R83). -/
theorem padZeros_add (L : Nat) : L + 1 + padZeros L + 8 = 64 * blockCount L := by
  unfold padZeros blockCount
  omega

/-- The length field is 8 bytes long, whatever the length (40_padding_controller.md R82). -/
@[simp] theorem lengthField_length (L : Nat) : (lengthField L).length = 8 := by
  unfold lengthField
  split <;> simp [bytes64, Config.lenFieldBytes]

/-- For a legal length the length field is that of 40_padding_controller.md R82. -/
theorem lengthField_of_legal {L : Nat} (h : L ≤ 2 ^ 61 - 1) : lengthField L = bytes64 (8 * L) :=
  if_pos h

/-- The length of the padded message (40_padding_controller.md R80). -/
@[simp] theorem pad_length (M : List Byte) :
    (pad M).length = M.length + 1 + padZeros M.length + 8 := by
  simp [pad]
  omega

/-- Byte `k` of the length field is the padding byte at its position. -/
theorem lengthField_getElem? (L k : Nat) (hk : k < 8) :
    (lengthField L)[k]? = some
      (if L ≤ 2 ^ 61 - 1 then BitVec.ofNat 8 ((8 * L) >>> (8 * (7 - k)))
       else Config.undefinedPadding L (64 * blockCount L - 8 + k)) := by
  unfold lengthField
  split <;> simp_all [bytes64, Config.lenFieldBytes, Config.blockBytes, Config.maxLenBytes]

/-- The bytewise form of 40_padding_controller.md R88 is the padded message of R80, byte by byte. -/
theorem pad_getElem?_eq_padByte (s : State) (p : Nat)
    (hp : p < 64 * blockCount s.msgLen) : (pad s.message)[p]? = some (s.padByte p) := by
  have hsum := padZeros_add s.msgLen
  have hread := State.memRead_eq_message s p
  have hlen := State.message_length s
  unfold State.padByte pad
  by_cases h1 : p < s.msgLen
  · rw [List.getElem?_append_left (by simp; omega), List.getElem?_append_left (by simp; omega),
      List.getElem?_append_left (by simp; omega), ← hread]
    simp [State.memRead, h1]
  · have hnone : s.memRead p = none := by simp [State.memRead, h1]
    rw [hnone]
    simp only
    by_cases h2 : p = s.msgLen
    · rw [if_pos h2, List.getElem?_append_left (by simp; omega),
        List.getElem?_append_left (by simp; omega), List.getElem?_append_right (by simp; omega)]
      simp [h2]
    · rw [if_neg h2]
      by_cases h3 : p < 64 * s.blocks - 8
      · rw [if_pos h3]
        unfold State.blocks at h3
        rw [List.getElem?_append_left (by simp; omega), List.getElem?_append_right (by simp; omega),
          List.getElem?_replicate, if_pos (by simp; omega)]
      · rw [if_neg h3]
        unfold State.blocks at h3 ⊢
        rw [List.getElem?_append_right (by simp; omega), lengthField_getElem? _ _ (by simp; omega)]
        simp only [List.length_append, List.length_replicate, List.length_singleton, hlen,
          Config.blockBytes, Config.maxLenBytes, hp, true_and]
        have hq : 64 * blockCount s.msgLen - 8 + (p - (s.msgLen + 1 + padZeros s.msgLen)) = p := by
          omega
        have hk : 7 - (p - (s.msgLen + 1 + padZeros s.msgLen)) = 64 * blockCount s.msgLen - 1 - p := by
          omega
        rw [hq, hk]

/-- Block by block, the padded message of the call is what PADBLK delivers, for every length and
every block index (40_padding_controller.md R86, R87). -/
theorem block_message (s : State) (i : Nat) : block s.message i = s.padBlock i := by
  have hsum := padZeros_add s.msgLen
  have hlen := State.message_length s
  unfold block State.padBlock
  congr 1
  funext q
  rw [hlen]
  by_cases hp : 64 * i + q.val < 64 * blockCount s.msgLen
  · rw [pad_getElem?_eq_padByte s _ hp]
    rfl
  · have h1 : (pad s.message)[64 * i + q.val]? = none := by
      rw [List.getElem?_eq_none_iff, pad_length, hlen]
      omega
    have h2 : s.memRead (64 * i + q.val) = none := by
      rw [State.memRead, if_neg (by omega)]
    have hN : 64 * s.blocks ≤ 64 * i + q.val := by
      unfold State.blocks
      omega
    rw [h1, State.padByte, h2]
    simp only [Option.getD_none]
    rw [if_neg (show ¬ 64 * i + q.val = s.msgLen by omega),
      if_neg (show ¬ 64 * i + q.val < 64 * s.blocks - 8 by omega),
      if_neg (fun h => absurd h.1 (show ¬ 64 * i + q.val < 64 * s.blocks by omega))]

/-- The message of a call launched with `M` is `M`. -/
theorem State.message_of_launched {M : List Byte} {t : State} (hm : t.msg = Memory.ofBytes M)
    (hL : t.msgLen = M.length) : t.message = M := by
  apply List.ext_getElem?
  intro p
  rw [← memRead_eq_message, memRead, hm, hL, Memory.read_ofBytes]
  by_cases hp : p < M.length <;> simp [hp]

end Sys2Proof.Machine
end

