-- ==== Sys2Proof/Laws/PerInstr.lean ====
section
/-! SUPPORT. Statements made for each micro-operation as syntax. -/

namespace Sys2Proof.Laws.WordLayout

/-- The two fields of an operation's op word are its class and its sub-opcode or index
(30_encoding.md R63, R65). -/
def Statement (i : Instr) : Prop :=
  (encode i).cls = i.cls ∧ (encode i).idx = i.idx

theorem init : Statement .init := ⟨by decide, by decide⟩
theorem padblk : Statement .padblk := ⟨by decide, by decide⟩
theorem ldv : Statement .ldv := ⟨by decide, by decide⟩
theorem acc : Statement .acc := ⟨by decide, by decide⟩
theorem fin : Statement .fin := ⟨by decide, by decide⟩
theorem ldw : ∀ j : Fin 64, Statement (.ldw j) := by unfold Statement; decide
theorem exw : ∀ j : Fin 64, Statement (.exw j) := by unfold Statement; decide
theorem rnd : ∀ j : Fin 64, Statement (.rnd j) := by unfold Statement; decide

end Sys2Proof.Laws.WordLayout
end

