-- ==== Sys2Proof/Laws/Step.lean ====
section
/-! SUPPORT. Once and for all, what one step can do. -/

namespace Sys2Proof.Machine

/-- The sequencer's op word at an LDW position decodes to that LDW, or is reserved. -/
theorem decode_opWord_ldw :
    ∀ j : Fin 64, decode (0x40 + BitVec.ofNat 8 j.val) =
      if j.val < 16 then .op (.ldw j) else .invalid (.reservedLoad j) := by decide

/-- The sequencer's op word at an EXW position decodes to that EXW, or is reserved. -/
theorem decode_opWord_exw :
    ∀ j : Fin 64, decode (0x80 + BitVec.ofNat 8 j.val) =
      if 16 ≤ j.val then .op (.exw j) else .invalid (.reservedExpand j) := by decide

/-- The sequencer's op word at an RND position decodes to that RND. -/
theorem decode_opWord_rnd :
    ∀ j : Fin 64, decode (0xC0 + BitVec.ofNat 8 j.val) = .op (.rnd j) := by decide

/-- The engine's own turn at each position. -/
theorem State.engineTurn_eq (s : State) :
    s.engineTurn =
      match s.pos with
      | .wait => .stuck
      | .atInit => .perform .init
      | .atPad => .perform .padblk
      | .atLdw j => if j.val < 16 then .perform (.ldw j) else .reserved
      | .atExw j => if 16 ≤ j.val then .perform (.exw j) else .reserved
      | .atLdv => .perform .ldv
      | .atRnd j => .perform (.rnd j)
      | .atAcc => .perform .acc
      | .atFin => .perform .fin := by
  unfold engineTurn
  cases hp : s.pos with
  | wait => rfl
  | atInit => rfl
  | atPad => rfl
  | atLdv => rfl
  | atAcc => rfl
  | atFin => rfl
  | atLdw j => by_cases h : j.val < 16 <;> simp only [Pos.opWord, decode_opWord_ldw, h, if_true, if_false]
  | atExw j => by_cases h : 16 ≤ j.val <;> simp only [Pos.opWord, decode_opWord_exw, h, if_true, if_false]
  | atRnd j => simp only [Pos.opWord, decode_opWord_rnd]

/-- The engine performs an operation exactly at that operation's position, its index in range. -/
theorem State.engineTurn_perform_iff {s : State} {i : Instr} :
    s.engineTurn = .perform i ↔ s.pos = Pos.ofInstr i ∧ i.wellFormed = true := by
  rw [engineTurn_eq]
  cases s.pos with
  | wait => cases i <;> simp [Pos.ofInstr]
  | atInit => cases i <;> simp [Pos.ofInstr, Instr.wellFormed]
  | atPad => cases i <;> simp [Pos.ofInstr, Instr.wellFormed]
  | atLdv => cases i <;> simp [Pos.ofInstr, Instr.wellFormed]
  | atAcc => cases i <;> simp [Pos.ofInstr, Instr.wellFormed]
  | atFin => cases i <;> simp [Pos.ofInstr, Instr.wellFormed]
  | atRnd j => cases i <;> simp [Pos.ofInstr, Instr.wellFormed]
  | atLdw j =>
    by_cases h : j.val < 16 <;> cases i <;> simp [Pos.ofInstr, Instr.wellFormed, h]
    all_goals rintro rfl; omega
  | atExw j =>
    by_cases h : 16 ≤ j.val <;> cases i <;> simp [Pos.ofInstr, Instr.wellFormed, h]
    all_goals rintro rfl; omega

/-- Everything a step that answers a next state can have done: the host reset, the host launched, the
engine was held at WAIT, or the engine performed the operation of its position with the host
silent. -/
theorem step_cases {s t : State} (h : step s = .next t) :
    (∃ input rest, s.hostInputs = input :: rest ∧ input.reset = true ∧ s.turn = .reset ∧
      t = Safety.resetWith rest) ∨
    (∃ input rest M, s.hostInputs = input :: rest ∧ input.reset = false ∧
      input.launch = some M ∧ s.turn = .launch M ∧ launch M s.popInput = .next t) ∨
    (s.pos = .wait ∧ Safety.HostSilent s ∧ s.turn = .idle ∧ t = s.popInput) ∨
    (∃ i, s.pos = Pos.ofInstr i ∧ i.wellFormed = true ∧ Safety.HostSilent s ∧
      s.turn = .perform i ∧ exec i s.popInput = .next t) := by
  have engine : Safety.HostSilent s → s.turn = s.engineTurn → (∃ i, s.pos = Pos.ofInstr i ∧
      i.wellFormed = true ∧ Safety.HostSilent s ∧ s.turn = .perform i ∧
      exec i s.popInput = .next t) := by
    intro hsil hturn
    have hrun : s.turn.run s = .next t := h
    cases ht : s.turn with
    | perform i =>
      rw [ht] at hrun
      have := State.engineTurn_perform_iff.mp (hturn ▸ ht)
      exact ⟨i, this.1, this.2, hsil, rfl, hrun⟩
    | stuck => rw [ht] at hrun; cases hrun
    | reserved => rw [ht] at hrun; cases hrun
    | reset => rw [hturn, State.engineTurn_eq] at ht; split at ht <;> (try split at ht) <;> cases ht
    | launch M => rw [hturn, State.engineTurn_eq] at ht; split at ht <;> (try split at ht) <;> cases ht
    | idle => rw [hturn, State.engineTurn_eq] at ht; split at ht <;> (try split at ht) <;> cases ht
  have hrun : s.turn.run s = .next t := h
  cases hin : s.hostInputs with
  | nil =>
    have hsil : Safety.HostSilent s := by simp [Safety.HostSilent, hin]
    exact .inr (.inr (.inr (engine hsil (by simp only [State.turn, hin]))))
  | cons input rest =>
    by_cases hr : input.reset = true
    · have ht : s.turn = .reset := by simp only [State.turn, hin, hr, if_true]
      rw [ht] at hrun
      refine .inl ⟨input, rest, rfl, hr, ht, ?_⟩
      injection hrun with hrun
      rw [← hrun, Safety.resetWith, State.applyReset, State.popInput_hostInputs, hin, List.tail_cons]
    · have hr : input.reset = false := by simpa using hr
      cases hl : input.launch with
      | some M =>
        have ht : s.turn = .launch M := by
          simp only [State.turn, hin, hr, hl, Bool.false_eq_true, if_false]
        rw [ht] at hrun
        exact .inr (.inl ⟨input, rest, M, rfl, hr, hl, ht, hrun⟩)
      | none =>
        have hsil : Safety.HostSilent s := by simp [Safety.HostSilent, hin, hr, hl]
        by_cases hw : s.pos = .wait
        · have ht : s.turn = .idle := by
            simp only [State.turn, hin, hr, hl, hw, Bool.false_eq_true, if_false, if_true]
          rw [ht] at hrun
          injection hrun with hrun
          exact .inr (.inr (.inl ⟨hw, hsil, ht, hrun.symm⟩))
        · have ht : s.turn = s.engineTurn := by
            simp only [State.turn, hin, hr, hl, hw, Bool.false_eq_true, if_false]
          exact .inr (.inr (.inr (engine hsil ht)))

end Sys2Proof.Machine
end

