-- ==== Sys2Proof/Laws/Run.lean ====
section
/-! SUPPORT. The engine's step with a silent host, and runs put together from shorter runs. -/

namespace Sys2Proof.Safety

open Sys2Proof.Machine

/-- No operation is performed at WAIT. -/
theorem ofInstr_ne_wait (i : Instr) : Pos.ofInstr i ≠ .wait := by cases i <;> simp [Pos.ofInstr]

/-- With a silent host, away from WAIT, it is the engine's turn. -/
theorem turn_eq_engineTurn {s : State} (h : HostSilent s) (hp : s.pos ≠ .wait) :
    s.turn = s.engineTurn := by
  unfold State.turn
  cases hin : s.hostInputs with
  | nil => rfl
  | cons input rest => simp [HostSilent, hin] at h; simp [h, hp]

/-- A host with no inputs left is silent. -/
theorem hostSilent_of_nil {s : State} (h : s.hostInputs = []) : HostSilent s := by
  simp [HostSilent, h]

/-- Taking the next input of a host that has none left changes nothing. -/
theorem popInput_of_nil {s : State} (h : s.hostInputs = []) : s.popInput = s := by
  cases s
  simp_all [State.popInput]

/-- With a silent host the step at an operation's position is that operation. -/
theorem step_at_ofInstr {s : State} {i : Instr} (h : HostSilent s) (hp : s.pos = Pos.ofInstr i)
    (hw : i.wellFormed = true) : step s = exec i s.popInput := by
  rw [step, turn_eq_engineTurn h (hp ▸ ofInstr_ne_wait i), State.engineTurn_perform_iff.mpr ⟨hp, hw⟩]
  rfl

/-- A run goes on from where a shorter run ended. -/
theorem run_append {m n : Nat} {s t : State} (h : run m s = .next t) : run (m + n) s = run n t := by
  induction m generalizing s with
  | zero => simp [run] at h; simp [h]
  | succ m ih =>
    rw [Nat.succ_add]
    simp only [run] at h ⊢
    cases hs : step s with
    | next u => rw [hs] at h; exact ih h
    | fault r => rw [hs] at h; cases h
    | refused r => rw [hs] at h; cases h

/-- A run one operation longer. -/
theorem run_snoc {n : Nat} {s t u : State} {i : Instr} (h : run n s = .next t)
    (hi : t.hostInputs = []) (hp : t.pos = Pos.ofInstr i) (hw : i.wellFormed = true)
    (he : exec i t = .next u) : run (n + 1) s = .next u := by
  rw [run_append h]
  simp only [run]
  rw [step_at_ofInstr (hostSilent_of_nil hi) hp hw, popInput_of_nil hi, he]

/-- What every step keeps holds all along a run. -/
theorem run_keeps {Inv : State → Prop} (hstep : ∀ s t, Inv s → step s = .next t → Inv t) {n : Nat}
    {s t : State} (hs : Inv s) (h : run n s = .next t) : Inv t := by
  induction n generalizing s with
  | zero => simp [run] at h; exact h ▸ hs
  | succ n ih =>
    simp only [run] at h
    cases hu : step s with
    | next u => rw [hu] at h; exact ih (hstep s u hs hu) h
    | fault r => rw [hu] at h; cases h
    | refused r => rw [hu] at h; cases h

/-- The operations of a run put together from two. -/
theorem opsOf_append {m n : Nat} {s t : State} (h : run m s = .next t) :
    opsOf (m + n) s = opsOf m s ++ opsOf n t := by
  induction m generalizing s with
  | zero => simp [run] at h; simp [h, opsOf]
  | succ m ih =>
    rw [Nat.succ_add]
    simp only [run] at h
    simp only [opsOf]
    cases hs : step s with
    | next u =>
      rw [hs] at h
      simp only [ih h]
      cases s.turn <;> rfl
    | fault r => rw [hs] at h; cases h
    | refused r => rw [hs] at h; cases h

end Sys2Proof.Safety
end

