-- ==== Sys2Proof/Laws/Words.lean ====
section
/-! SUPPORT. The rotation bit by bit and as core's rotation, and the byte packing as numbers. -/

namespace Sys2Proof.Machine

/-- For the rotation counts of the spec, 1 to 31, `rotr` is core's rotation. -/
theorem rotr_eq_rotateRight (x : Word) (n : Nat) (h : n < 32) : rotr x n = x.rotateRight n := by
  rw [rotr, BitVec.rotateRight_def, Nat.mod_eq_of_lt h]

/-- The form of the big sigmas in core's rotations. -/
theorem mixRotations_eq_rotateRight (x : Word) (n1 n2 n3 : Nat) (h1 : n1 < 32) (h2 : n2 < 32)
    (h3 : n3 < 32) :
    mixRotations x n1 n2 n3 = x.rotateRight n1 ^^^ x.rotateRight n2 ^^^ x.rotateRight n3 := by
  rw [mixRotations, rotr_eq_rotateRight x n1 h1, rotr_eq_rotateRight x n2 h2,
    rotr_eq_rotateRight x n3 h3]

/-- The form of the small sigmas in core's rotations. -/
theorem mixRotationsShift_eq_rotateRight (x : Word) (n1 n2 shift : Nat) (h1 : n1 < 32)
    (h2 : n2 < 32) :
    mixRotationsShift x n1 n2 shift = x.rotateRight n1 ^^^ x.rotateRight n2 ^^^ x >>> shift := by
  rw [mixRotationsShift, rotr_eq_rotateRight x n1 h1, rotr_eq_rotateRight x n2 h2]

/-- Bit `i` of a rotated word is bit `i + n` of the word, counted around (00_scope.md R13). -/
theorem rotr_getLsbD (x : Word) (n i : Nat) (h0 : 0 < n) (h : n < 32) (hi : i < 32) :
    (rotr x n).getLsbD i = x.getLsbD ((i + n) % 32) := by
  simp only [rotr, BitVec.getLsbD_or, BitVec.getLsbD_ushiftRight, BitVec.getLsbD_shiftLeft]
  by_cases hh : i + n < 32
  · have hlow : i < 32 - n := by omega
    rw [Nat.mod_eq_of_lt hh]
    simp [hlow, Nat.add_comm]
  · have hhigh : ¬ i < 32 - n := by omega
    have hmod : (i + n) % 32 = i - (32 - n) := by omega
    have hout : x.getLsbD (n + i) = false := BitVec.getLsbD_of_ge _ _ (by omega)
    simp [*]

/-- Four bytes as a word, as a number (00_scope.md R14). -/
theorem be32_toNat (b0 b1 b2 b3 : Byte) :
    (be32 b0 b1 b2 b3).toNat =
      b0.toNat * 2 ^ 24 + b1.toNat * 2 ^ 16 + b2.toNat * 2 ^ 8 + b3.toNat := by
  unfold be32
  rw [BitVec.toNat_append, ← Nat.shiftLeft_add_eq_or_of_lt b3.isLt, BitVec.toNat_append,
    ← Nat.shiftLeft_add_eq_or_of_lt b2.isLt, BitVec.toNat_append,
    ← Nat.shiftLeft_add_eq_or_of_lt b1.isLt]
  simp only [Nat.shiftLeft_eq]
  omega

/-- Byte `k` of a word, as a number (00_scope.md R14). -/
theorem bytes32_toNat (x : Word) (k : Fin 4) :
    (bytes32 x)[k].toNat = x.toNat / 2 ^ (8 * (3 - k.val)) % 256 := by
  match k with
  | 0 | 1 | 2 | 3 => simp [bytes32, BitVec.extractLsb'_toNat, Nat.shiftRight_eq_div_pow]

end Sys2Proof.Machine
end

