-- ==== Sys2Proof/Tests/Slice0.lean ====
section
/-! SUPPORT. The model's own tests. Expected values come from spec/95_test_vectors.md and from the
opcode map of spec/30_encoding.md. The second half shows, for each statement that has hypotheses, a
state and operands that meet them. -/

namespace Sys2Proof.Tests

open Sys2Proof.Machine Sys2Proof.Safety

/-! ## Helpers -/

/-- The next state of an outcome, if there is one. -/
def nextOf : Host.Outcome State Fault Refusal → Option State
  | .next t => some t
  | .fault _ => none
  | .refused _ => none

/-- The message "abc". -/
def abc : List Byte := [0x61, 0x62, 0x63]

/-- 56 bytes 0x61: two blocks. -/
def a56 : List Byte := List.replicate 56 0x61

/-- The two-block message of spec/95_test_vectors.md section 6. -/
def twoBlocks : List Byte :=
  [0x61, 0x62, 0x63, 0x64, 0x62, 0x63, 0x64, 0x65, 0x63, 0x64, 0x65, 0x66, 0x64, 0x65, 0x66, 0x67]
    ++
    [0x65, 0x66, 0x67, 0x68, 0x66, 0x67, 0x68, 0x69, 0x67, 0x68, 0x69, 0x6a, 0x68, 0x69, 0x6a,
      0x6b] ++
    [0x69, 0x6a, 0x6b, 0x6c, 0x6a, 0x6b, 0x6c, 0x6d, 0x6b, 0x6c, 0x6d, 0x6e, 0x6c, 0x6d, 0x6e,
      0x6f] ++
    [0x6d, 0x6e, 0x6f, 0x70, 0x6e, 0x6f, 0x70, 0x71]

/-- An engine at a position of block `blk` of a call of `M`, every register known. -/
def callAt (M : List Byte) (pos : Pos) (blk : Nat) : State where
  H := initialHash
  v := Vars.ofHash initialHash
  W := Vector.ofFn fun j => BitVec.ofNat 32 j.val
  B := Vector.ofFn fun q => BitVec.ofNat 8 q.val
  DG := Vector.ofFn fun _ => 0
  phase := .accept
  pos := pos
  blk := blk
  msg := Memory.ofBytes M
  msgLen := M.length
  hostInputs := []

/-- An engine that has finished a call of "abc", with the host's inputs to come. -/
def doneWith (inputs : List HostInput) : State where
  H := hashAfter abc 1
  v := Vars.ofHash initialHash
  W := Vector.ofFn fun _ => 0
  B := Vector.ofFn fun _ => 0
  DG := sha256 abc
  phase := .done
  pos := .wait
  blk := 0
  msg := Memory.ofBytes abc
  msgLen := 3
  hostInputs := inputs

/-! ## Which terms are operations -/

theorem test_wellFormed_refuses_ldw_16 : (Instr.ldw 16).wellFormed = false := by decide
theorem test_wellFormed_refuses_ldw_63 : (Instr.ldw 63).wellFormed = false := by decide
theorem test_wellFormed_refuses_exw_15 : (Instr.exw 15).wellFormed = false := by decide
theorem test_wellFormed_refuses_exw_0 : (Instr.exw 0).wellFormed = false := by decide
theorem test_wellFormed_accepts_the_bounds :
    (Instr.ldw 0).wellFormed ∧ (Instr.ldw 15).wellFormed ∧ (Instr.exw 16).wellFormed ∧
      (Instr.exw 63).wellFormed ∧ (Instr.rnd 0).wellFormed ∧ (Instr.rnd 63).wellFormed := by decide

/-! ## Encoding: words written out from 30_encoding.md R65 -/

theorem test_decode_init : decode 0b00_000000#8 = .op .init := by decide
theorem test_decode_padblk : decode 0b00_000001#8 = .op .padblk := by decide
theorem test_decode_ldv : decode 0b00_000010#8 = .op .ldv := by decide
theorem test_decode_acc : decode 0b00_000011#8 = .op .acc := by decide
theorem test_decode_fin : decode 0b00_000100#8 = .op .fin := by decide
theorem test_decode_ldw : decode 0b01_000101#8 = .op (.ldw 5) := by decide
theorem test_decode_exw : decode 0b10_100001#8 = .op (.exw 33) := by decide
theorem test_decode_rnd : decode 0b11_101010#8 = .op (.rnd 42) := by decide
/-- The reserved words at the ends of the three ranges (30_encoding.md R67). -/
theorem test_decode_reserved :
    decode 0x05 = .invalid (.reservedControl 5) ∧ decode 0x3F = .invalid (.reservedControl 63) ∧
    decode 0x50 = .invalid (.reservedLoad 16) ∧ decode 0x7F = .invalid (.reservedLoad 63) ∧
    decode 0x80 = .invalid (.reservedExpand 0) ∧ decode 0x8F = .invalid (.reservedExpand 15) := by
  decide
/-- The 131 op words of one BLOCK (95_test_vectors.md section 9). -/
theorem test_encode_block :
    blockOps.map encode =
      [0x01, 0x40, 0x41, 0x42, 0x43, 0x44, 0x45, 0x46, 0x47, 0x48, 0x49, 0x4a, 0x4b, 0x4c, 0x4d,
        0x4e, 0x4f, 0x90, 0x91, 0x92, 0x93, 0x94] ++
      [0x95, 0x96, 0x97, 0x98, 0x99, 0x9a, 0x9b, 0x9c, 0x9d, 0x9e, 0x9f, 0xa0, 0xa1, 0xa2, 0xa3,
        0xa4, 0xa5, 0xa6, 0xa7, 0xa8, 0xa9, 0xaa] ++
      [0xab, 0xac, 0xad, 0xae, 0xaf, 0xb0, 0xb1, 0xb2, 0xb3, 0xb4, 0xb5, 0xb6, 0xb7, 0xb8, 0xb9,
        0xba, 0xbb, 0xbc, 0xbd, 0xbe, 0xbf, 0x02] ++
      [0xc0, 0xc1, 0xc2, 0xc3, 0xc4, 0xc5, 0xc6, 0xc7, 0xc8, 0xc9, 0xca, 0xcb, 0xcc, 0xcd, 0xce,
        0xcf, 0xd0, 0xd1, 0xd2, 0xd3, 0xd4, 0xd5] ++
      [0xd6, 0xd7, 0xd8, 0xd9, 0xda, 0xdb, 0xdc, 0xdd, 0xde, 0xdf, 0xe0, 0xe1, 0xe2, 0xe3, 0xe4,
        0xe5, 0xe6, 0xe7, 0xe8, 0xe9, 0xea, 0xeb] ++
      [0xec, 0xed, 0xee, 0xef, 0xf0, 0xf1, 0xf2, 0xf3, 0xf4, 0xf5, 0xf6, 0xf7, 0xf8, 0xf9, 0xfa,
        0xfb, 0xfc, 0xfd, 0xfe, 0xff, 0x03] := by
  decide
theorem test_decodeTableWord_other_length :
    decodeTableWord 16 0x40 = none ∧ decodeTableWord 8 0x140 = none ∧
      decodeTableWord 8 0x40 = some (.ldw 0) := by decide
theorem test_trace : (Instr.exw 17).trace = "EXW 17" ∧ Instr.padblk.trace = "PADBLK" := by decide

/-! ## Word functions (95_test_vectors.md section 2) -/

theorem test_rotr : rotr 0x12345678 17 = 0x2b3c091a ∧ rotr 0x80000000 25 = 0x00000040 := by decide
theorem test_smallSigma0 :
    smallSigma0 0x12345678 = 0xe7fce6ee ∧ smallSigma0 0xffffffff = 0x1fffffff := by decide
theorem test_smallSigma1 :
    smallSigma1 0x12345678 = 0xa1f78649 ∧ smallSigma1 0xffffffff = 0x003fffff := by decide
theorem test_bigSigma0 :
    bigSigma0 0x12345678 = 0x66146474 ∧ bigSigma0 0x80000000 = 0x20040200 := by decide
theorem test_bigSigma1 :
    bigSigma1 0x12345678 = 0x3561abda ∧ bigSigma1 0x80000000 = 0x02100040 := by decide
theorem test_ch : ch 0xf0f0f0f0 0xcccccccc 0xaaaaaaaa = 0xcacacaca := by decide
theorem test_maj : maj 0xf0f0f0f0 0xcccccccc 0xaaaaaaaa = 0xe8e8e8e8 := by decide
theorem test_be32 : be32 0x01 0x02 0x03 0x04 = 0x01020304 := by decide
theorem test_bytes32 :
    (bytes32 0xba7816bf)[0] = 0xba ∧ (bytes32 0xba7816bf)[3] = 0xbf := by decide
theorem test_bytes64 :
    bytes64 448 = [0, 0, 0, 0, 0, 0, 0x01, 0xc0] ∧
      bytes64 (2 ^ 64 - 8) = [0xff, 0xff, 0xff, 0xff, 0xff, 0xff, 0xff, 0xf8] := by decide
theorem test_padZeros : padZeros 55 = 0 ∧ padZeros 56 = 63 ∧ padZeros 64 = 55 := by decide
theorem test_blockCount :
    blockCount 55 = 1 ∧ blockCount 56 = 2 ∧ blockCount 119 = 2 ∧ blockCount 120 = 3 ∧
      blockCount (2 ^ 61 - 1) = 36028797018963969 := by decide

/-! ## One step of each operation -/

/-- INIT at any position of a call (95_test_vectors.md section 4). -/
theorem test_init :
    (nextOf (exec .init (callAt abc .atInit 7))).map (fun t => (t.H[7], t.blk, t.pos)) =
      some (0x5be0cd19, 0, .atPad) := by decide
/-- PADBLK of "abc": the last message byte, the marker, the last length byte (section 3). -/
theorem test_padblk_abc :
    (nextOf (exec .padblk (callAt abc .atPad 0))).map (fun t => (t.B[2], t.B[3], t.B[4], t.B[63])) =
      some (0x63, 0x80, 0x00, 0x18) := by decide
/-- PADBLK of the second block of 56 bytes: no message byte, length 448 (section 3). -/
theorem test_padblk_second_block :
    (nextOf (exec .padblk (callAt a56 .atPad 1))).map (fun t => (t.B[0], t.B[62], t.B[63], t.pos)) =
      some (0x00, 0x01, 0xc0, .atLdw 0) := by decide
/-- LDW 15 packs bytes 60 to 63, first byte on top, and moves to EXW 16. -/
theorem test_ldw_15 :
    (nextOf (exec (.ldw 15) (callAt abc (.atLdw 15) 0))).map (fun t => (t.W[15], t.W[14], t.pos)) =
      some (0x3c3d3e3f, 14, .atExw 16) := by decide
theorem test_ldw_16_stops : nextOf (exec (.ldw 16) (callAt abc (.atLdw 16) 0)) = none := by decide
/-- EXW 17 of "abc": `W[17] = W[1] + σ0(W[2]) + W[10] + σ1(W[15])` with `W[15] = 0x18` only. -/
theorem test_exw_17 :
    (nextOf (exec (.exw 17)
      { callAt abc (.atExw 17) 0 with W := Vector.ofFn fun j => if j = 15 then 0x18 else 0 })).map
        (fun t => (t.W[17], t.pos)) = some (0x000f0000, .atExw 18) := by decide
theorem test_exw_15_stops : nextOf (exec (.exw 15) (callAt abc (.atExw 15) 0)) = none := by decide
theorem test_ldv :
    (nextOf (exec .ldv { callAt abc .atLdv 0 with v := ⟨0, 0, 0, 0, 0, 0, 0, 0⟩ })).map
      (fun t => (t.v.a, t.v.h, t.pos)) = some (0x6a09e667, 0x5be0cd19, .atRnd 0) := by decide
/-- RND 0 of "abc" (section 4). -/
theorem test_rnd_0 :
    (nextOf (exec (.rnd 0)
      { callAt abc (.atRnd 0) 0 with W := Vector.ofFn fun _ => 0x61626380 })).map (fun t => t.v) =
      some ⟨0x5d6aebcd, 0x6a09e667, 0xbb67ae85, 0x3c6ef372, 0xfa2a4622, 0x510e527f, 0x9b05688c,
        0x1f83d9ab⟩ := by decide
/-- Everything wraps: the last but one row of the round table of section 2. -/
theorem test_oneRound_wraps :
    oneRound ⟨0xffffffff, 0xffffffff, 0xffffffff, 0xffffffff, 0xffffffff, 0xffffffff, 0xffffffff,
        0xffffffff⟩ 0xffffffff 0xffffffff =
      ⟨0xfffffff9, 0xffffffff, 0xffffffff, 0xffffffff, 0xfffffffa, 0xffffffff, 0xffffffff,
        0xffffffff⟩ := by decide
/-- ACC adds without a carry between lanes and goes to the next block. -/
theorem test_acc_wraps_to_next_block :
    (nextOf (exec .acc
      { callAt a56 .atAcc 0 with
        H := Vector.ofFn fun _ => 0xffffffff, v := ⟨1, 2, 3, 4, 5, 6, 7, 8⟩ })).map
      (fun t => (t.H[0], t.H[1], t.H[7], t.blk, t.pos)) = some (0, 1, 7, 1, .atPad) := by decide
theorem test_acc_last_block :
    (nextOf (exec .acc (callAt a56 .atAcc 1))).map (fun t => (t.blk, t.pos)) =
      some (1, .atFin) := by decide
/-- FIN writes the words most significant byte first and sets DONE in the same step. -/
theorem test_fin :
    (nextOf (exec .fin (callAt abc .atFin 0))).map (fun t => (t.DG[0], t.DG[3], t.DG[31])) =
      some (0x6a, 0x67, 0x19) ∧
    (nextOf (exec .fin (callAt abc .atFin 0))).map (fun t => (t.done, t.pos)) =
      some (true, .wait) := by decide

/-! ## The step, the host, and the call -/

/-- From reset, LAUNCH is the first step (95_test_vectors.md program P2). -/
theorem test_launch_from_reset :
    (nextOf (step (resetWith [⟨false, some abc⟩]))).map
      (fun t => (t.pos, t.msgLen, t.memRead 2, t.memRead 3)) =
      some (.atInit, 3, some 0x63, none) := by decide
/-- RESET wins over a coinciding LAUNCH (60_exceptions.md R143). -/
theorem test_reset_wins :
    (nextOf (step { callAt abc (.atRnd 3) 0 with hostInputs := [⟨true, some abc⟩] })).map
      (fun t => (t.pos, t.msgLen, t.phase)) = some (.wait, 0, .accept) := by decide
/-- A placed op word is what the next step after reset performs. -/
theorem test_withFetchWord :
    (nextOf (step (State.reset.withFetchWord 8 0xC5))).map (fun t => t.pos) =
      some (.atRnd 6) ∧
    nextOf (step (State.reset.withFetchWord 8 0x50)) = none := by decide
/-- A word of another length than 8 bits is no op word (30_encoding.md R68) and places no operation. -/
theorem test_withFetchWord_other_length :
    decodeTableWord 16 0x0140 = none ∧ State.reset.withFetchWord 16 0x0140 = State.reset :=
  ⟨by decide, rfl⟩
/-- Zero bytes of a message are left out of the stored pairs and read back as zero. -/
theorem test_message_canonical :
    Memory.ofBytes [0x00, 0x61, 0x00] = [(1, 0x61)] ∧
      (callAt [0x00, 0x61, 0x00] .atPad 0).message = [0x00, 0x61, 0x00] := by decide
/-- The engine never leaves WAIT on its own. -/
theorem test_reset_waits : nextOf (step State.reset) = none := by decide
/-- The source's known answer for "abc" (95_test_vectors.md S2). -/
theorem test_sha256_abc :
    (sha256 abc).toList =
      [0xba, 0x78, 0x16, 0xbf, 0x8f, 0x01, 0xcf, 0xea, 0x41, 0x41, 0x40, 0xde, 0x5d, 0xae, 0x22,
        0x23, 0xb0, 0x03, 0x61, 0xa3, 0x96, 0x17, 0x7a, 0x9c, 0xb4, 0x10, 0xff, 0x61, 0xf2, 0x00,
        0x15, 0xad] := by
  decide +kernel
/-- The two-block message (95_test_vectors.md section 6). -/
theorem test_sha256_twoBlocks :
    (sha256 twoBlocks).toList =
      [0x24, 0x8d, 0x6a, 0x61, 0xd2, 0x06, 0x38, 0xb8, 0xe5, 0xc0, 0x26, 0x93, 0x0c, 0x3e, 0x60,
        0x39, 0xa3, 0x3c, 0xe4, 0x59, 0x64, 0xff, 0x21, 0x67, 0xf6, 0xec, 0xed, 0xd4, 0x19, 0xdb,
        0x06, 0xc1] := by
  decide +kernel

/-! ## Witnesses: the hypotheses of the statements can be met -/

/-- One op word in each row of the case table, at the ends of the rows. -/
theorem test_witness_DecodeFollowsTheCaseTable :
    ((0x04#8).toNat / 64 = 0 ∧ (0x04#8).toNat % 64 = 4) ∧
    ((0x05#8).toNat / 64 = 0 ∧ 5 ≤ (0x05#8).toNat % 64) ∧
    ((0x4F#8).toNat / 64 = 1 ∧ (0x4F#8).toNat % 64 ≤ 15) ∧
    ((0x50#8).toNat / 64 = 1 ∧ 16 ≤ (0x50#8).toNat % 64) ∧
    ((0x8F#8).toNat / 64 = 2 ∧ (0x8F#8).toNat % 64 ≤ 15) ∧
    ((0x90#8).toNat / 64 = 2 ∧ 16 ≤ (0x90#8).toNat % 64) ∧
    (0xC0#8).toNat / 64 = 3 ∧ (0xFF#8).toNat / 64 = 3 ∧ decode 0xFF#8 = .op (.rnd 63) := by decide
theorem test_witness_DecodeInvertsEncode :
    (Instr.exw 16).wellFormed = true ∧ decode 0x90 = .op (.exw 16) := by decide
theorem test_witness_ReservedWordsNameNoOperation :
    (Pos.atLdw 15).legal = true ∧ Pos.opWord (.atLdw 15) = some 0x4F ∧
      (Pos.atExw 63).legal = true ∧ Pos.opWord (.atExw 63) = some 0xBF := by decide
theorem test_witness_PositionProducesItsOpWord :
    ((15 : Fin 64).val < 16) ∧ 16 ≤ (16 : Fin 64).val := by decide
theorem test_witness_StepPerformsTheDecodedOperation :
    HostSilent (callAt abc (.atLdw 15) 0) ∧ (callAt abc (.atLdw 15) 0).pos.opWord = some 0x4F ∧
      decode 0x4F = .op (.ldw 15) ∧ (callAt abc (.atLdw 15) 0).hostInputs = [] :=
  ⟨hostSilent_of_nil rfl, by decide, by decide, rfl⟩
theorem test_witness_PlacedWordIsPerformedNext : (Instr.ldw 15).wellFormed = true := by decide
theorem test_witness_EngineStepIsAlwaysEnabled :
    (callAt abc (.atExw 63) 0).pos.legal = true ∧ (callAt abc (.atExw 63) 0).pos ≠ .wait ∧
      HostSilent (callAt abc (.atExw 63) 0) ∧ State.reset.pos = .wait ∧
      State.reset.hostInputs = [] :=
  ⟨by decide, by decide, hostSilent_of_nil rfl, rfl, rfl⟩
/-- A position for each clause, the indexed ones at both sides of their last index. -/
theorem test_witness_SequencerFollowsTheNextTable :
    (∀ p : Pos, HostSilent (callAt a56 p 0) ∧ (callAt a56 p 0).pos = p ∧
      (callAt a56 p 0).hostInputs = []) ∧
    ((14 : Fin 64).val < 15) ∧ (16 ≤ (62 : Fin 64).val ∧ (62 : Fin 64).val < 63) ∧
    ((callAt a56 .atAcc 0).blk + 1 < ((callAt a56 .atAcc 0).msgLen + 8) / 64 + 1) ∧
    ((callAt a56 .atAcc 1).blk + 1 = ((callAt a56 .atAcc 1).msgLen + 8) / 64 + 1) :=
  ⟨fun _ => ⟨hostSilent_of_nil rfl, rfl, rfl⟩, by decide, by decide, by decide, by decide⟩
/-- Two calls of different messages of one length, with different words. -/
theorem test_witness_ControlIgnoresData :
    ∃ s t s' : State, s.pos = t.pos ∧ s.blk = t.blk ∧ s.msgLen = t.msgLen ∧ s.hostInputs = [] ∧
      t.hostInputs = [] ∧ s.H ≠ t.H ∧ s.msg ≠ t.msg ∧ step s = .next s' :=
  ⟨callAt abc .atAcc 0,
    { callAt [1, 2, 3] .atAcc 0 with H := Vector.ofFn fun _ => 0 }, _, rfl, rfl, rfl, rfl, rfl,
    by decide, by decide, rfl⟩
/-- The four cases of a padding byte, at both sides of each boundary, and that they exclude each
  other. -/
theorem test_witness_PadblkResult :
    (callAt abc .atPad 0).blk < ((callAt abc .atPad 0).msgLen + 8) / 64 + 1 ∧
    (callAt abc .atPad 0).msgLen ≤ 2 ^ 61 - 1 ∧
    (64 * 0 + (2 : Fin 64).val < 3) ∧ (64 * 0 + (3 : Fin 64).val = 3) ∧
    (3 < 64 * 0 + (4 : Fin 64).val ∧ 64 * 0 + (55 : Fin 64).val < 64 * 1 - 8) ∧
    (64 * 1 - 8 ≤ 64 * 0 + (56 : Fin 64).val) ∧
    (∀ L : Nat, L < 64 * ((L + 8) / 64 + 1) - 8) :=
  ⟨by decide, by decide, by decide, by decide, by decide, by decide, by omega⟩
theorem test_witness_LdwResult : (15 : Fin 64).val < 16 := by decide
theorem test_witness_ExwResult : 16 ≤ (16 : Fin 64).val := by decide
/-- The two temporaries of round 0 of "abc" (95_test_vectors.md section 4). -/
theorem test_witness_RndResult :
    ∃ v : Vars, v = Vars.ofHash initialHash ∧
      (0x54da50e8 : Word) =
        v.h + (v.e.rotateRight 6 ^^^ v.e.rotateRight 11 ^^^ v.e.rotateRight 25) +
          ((v.e &&& v.f) ^^^ (~~~v.e &&& v.g)) + K 0 + 0x61626380 ∧
      (0x08909ae5 : Word) =
        (v.a.rotateRight 2 ^^^ v.a.rotateRight 13 ^^^ v.a.rotateRight 22) +
          ((v.a &&& v.b) ^^^ (v.a &&& v.c) ^^^ (v.b &&& v.c)) :=
  ⟨_, rfl, by decide, by decide⟩
theorem test_witness_AccResult :
    ((callAt a56 .atAcc 0).blk + 1 < ((callAt a56 .atAcc 0).msgLen + 8) / 64 + 1) ∧
    ¬ ((callAt a56 .atAcc 1).blk + 1 < ((callAt a56 .atAcc 1).msgLen + 8) / 64 + 1) := by decide
theorem test_witness_ReservedIndexStops :
    16 ≤ (16 : Fin 64).val ∧ (15 : Fin 64).val < 16 := by decide
/-- Two engines that agree on H, which LDV reads, and on nothing else. -/
theorem test_witness_OperationsReadOnlyTheirReadSet :
    ∃ s t s' : State, s.blk = t.blk ∧ s.msg = t.msg ∧ s.msgLen = t.msgLen ∧
      (∀ x ∈ readsOf .ldv, Element.Same s t x) ∧ s.W ≠ t.W ∧ exec .ldv s = .next s' :=
  ⟨callAt abc .atLdv 0, { callAt abc .atLdv 0 with W := Vector.ofFn fun _ => 0 }, _, rfl, rfl, rfl,
    by
      intro x hx
      obtain ⟨i, _, rfl⟩ := List.mem_map.mp hx
      exact (rfl : (callAt abc .atLdv 0).H[i] = (callAt abc .atLdv 0).H[i]),
    by decide, rfl⟩
theorem test_witness_OperationsWriteOnlyTheirWriteSet :
    ∃ t, exec (.rnd 63) (callAt abc (.atRnd 63) 0) = .next t ∧ Element.H 0 ∉ writesOf (.rnd 63) :=
  ⟨_, rfl, by decide⟩
/-- The lowest and highest bit, and both sides of where the shifts bring in zeros. -/
theorem test_witness_SmallSigmasBitByBit :
    (0 < 32 ∧ 31 < 32) ∧ 28 + 3 < 32 ∧ ¬ 29 + 3 < 32 ∧ 21 + 10 < 32 ∧ ¬ 22 + 10 < 32 := by decide
theorem test_witness_BigSigmasBitByBit : 0 < 32 ∧ 31 < 32 := by decide
theorem test_witness_ChooseAndMajorityBitByBit :
    (0x80000000 : Word).getLsbD 31 = true ∧ (0x7fffffff : Word).getLsbD 31 = false := by decide
theorem test_witness_ScheduleSatisfiesTheRecurrence : 15 < 16 ∧ 16 ≤ 16 ∧ 63 < 64 := by decide
theorem test_witness_BytePackingIsBigEndian : (2 ^ 64 - 8 : Nat) < 2 ^ 64 := by decide
theorem test_witness_PaddedLengthIsWholeBlocks : abc.length ≤ 2 ^ 61 - 1 := by decide
theorem test_witness_ZeroFillIsTheLeast :
    (55 : Nat) % 64 ≤ 55 ∧ 56 ≤ (56 : Nat) % 64 ∧ (55 + 1 + 0) % 64 = 56 := by decide
theorem test_witness_LengthFieldHoldsTheBitLength : a56.length ≤ 2 ^ 61 - 1 := by decide
theorem test_witness_LengthBoundaryAddsABlock :
    (55 : Nat) ≤ 55 ∧ (56 : Nat) ≤ 56 ∧ (56 : Nat) ≤ 63 ∧ (63 : Nat) ≤ 63 := by decide
theorem test_witness_PadblkDeliversTheBlock :
    (callAt a56 .atPad 1).msgLen ≤ 2 ^ 61 - 1 ∧
      (callAt a56 .atPad 1).blk < blockCount (callAt a56 .atPad 1).msgLen := by decide
theorem test_witness_LaunchedMessageReadsBack :
    ∃ t, launch [0x61, 0x00, 0x63] State.reset = .next t := ⟨_, rfl⟩
/-- Two messages of 65 bytes that differ in byte 0 only, at block 1. -/
theorem test_witness_PadblkReadsOnlyItsOwnBytes :
    ∃ s t : State, s.msgLen = t.msgLen ∧ s.blk = t.blk ∧
      (∀ p, 64 * s.blk ≤ p → p < min (64 * s.blk + 64) s.msgLen → s.memRead p = t.memRead p) ∧
      s.memRead 0 ≠ t.memRead 0 ∧ s.memRead 64 = some 0x61 :=
  ⟨callAt (List.replicate 65 0x61) .atPad 1, callAt (0x62 :: List.replicate 64 0x61) .atPad 1, rfl,
    rfl,
    by
      intro p h1 h2
      have h1 : 64 * 1 ≤ p := h1
      have h2 : p < min (64 * 1 + 64) 65 := h2
      have hp : p = 64 := by omega
      subst hp
      decide,
    by decide, by decide⟩
theorem test_witness_OperationsWriteNoMemory :
    ∃ t, exec .padblk (callAt abc .atPad 0) = .next t := ⟨_, rfl⟩
/-- The longest admitted message. -/
theorem test_witness_LaunchStartsACall :
    ∃ (M : List Byte) (s : State) (rest : List HostInput), s.pos = .wait ∧
      M.length ≤ 2 ^ 61 - 1 ∧ 2 ^ 61 - 1 ≤ M.length ∧ s.hostInputs = ⟨false, some M⟩ :: rest :=
  ⟨List.replicate (2 ^ 61 - 1) 0x61, resetWith [⟨false, some (List.replicate (2 ^ 61 - 1) 0x61)⟩],
    [],
    rfl, by rw [List.length_replicate], by rw [List.length_replicate], rfl⟩
/-- The shortest refused message. -/
theorem test_witness_OverlongLaunchIsRefused :
    ∃ (M : List Byte) (s : State) (rest : List HostInput), s.pos = .wait ∧
      2 ^ 61 ≤ M.length ∧ s.hostInputs = ⟨false, some M⟩ :: rest :=
  ⟨List.replicate (2 ^ 61) 0x61, resetWith [⟨false, some (List.replicate (2 ^ 61) 0x61)⟩], [], rfl,
    by rw [List.length_replicate], rfl⟩
theorem test_witness_LaunchDuringACallIsRefused :
    ∃ (M : List Byte) (s : State) (rest : List HostInput), s.pos ≠ .wait ∧
      s.hostInputs = ⟨false, some M⟩ :: rest :=
  ⟨abc, { callAt abc (.atRnd 5) 0 with hostInputs := [⟨false, some abc⟩] }, [], by decide, rfl⟩
theorem test_witness_ResetWinsInEveryState :
    ∃ (s : State) (input : HostInput) (rest : List HostInput), s.pos = .atRnd 5 ∧
      s.hostInputs = input :: rest ∧ input.reset = true ∧ input.launch = some abc :=
  ⟨{ callAt abc (.atRnd 5) 0 with hostInputs := [⟨true, some abc⟩] }, _, _, rfl, rfl, rfl, rfl⟩

/-- A call in progress at any position with an index in range meets the control invariant. -/
theorem controlInv_callAt {pos : Pos} {blk : Nat} (hl : pos.legal = true) (hw : pos ≠ .wait)
    (hb : blk < 2) : ControlInv (callAt a56 pos blk) where
  legalPos := hl
  doneWaits h := by cases h
  acceptingWaitIsReset h := absurd h hw
  callAccepts _ := rfl
  blkInCall _ _ := Nat.lt_of_lt_of_le hb (by decide : 2 ≤ blockCount a56.length)
  blkFits := Nat.lt_of_lt_of_le hb (by decide)
  msgCanonical := Memory.wf_ofBytes a56
  msgWithin := Memory.within_ofBytes a56
  msgLegal := (by decide : 56 ≤ 2 ^ 61 - 1)

/-- An engine that has finished a call meets the control invariant. -/
theorem controlInv_doneWith (inputs : List HostInput) : ControlInv (doneWith inputs) where
  legalPos := rfl
  doneWaits _ := rfl
  acceptingWaitIsReset _ h := by cases h
  callAccepts h := absurd rfl h
  blkInCall h := absurd rfl h
  blkFits := Nat.two_pow_pos 56
  msgCanonical := Memory.wf_ofBytes abc
  msgWithin := Memory.within_ofBytes abc
  msgLegal := (by decide : 3 ≤ 2 ^ 61 - 1)

/-- An engine that has finished a call meets the data invariant. -/
theorem dataInv_doneWith (inputs : List HostInput) : DataInv (doneWith inputs) where
  hashSoFar h := absurd rfl h
  blockLoaded _ h := nomatch (show Pos.wait = .atLdw _ from h)
  loadedSoFar _ h := nomatch (show Pos.wait = .atLdw _ from h)
  expandedSoFar _ h := nomatch (show Pos.wait = .atExw _ from h)
  scheduleDone h := nomatch (show Pos.wait = .atLdv from h)
  roundsSoFar _ h := nomatch (show Pos.wait = .atRnd _ from h)
  roundsDone h := nomatch (show Pos.wait = .atAcc from h)
  hashDone h := nomatch (show Pos.wait = .atFin from h)
  digestDone _ := by
    have hmsg : (doneWith inputs).message = abc := State.message_of_launched rfl rfl
    have hN : blockCount abc.length = 1 := by decide
    have hblocks : (doneWith inputs).blocks = 1 := hN
    rw [hmsg, hblocks]
    refine ⟨rfl, ?_, rfl, rfl⟩
    show sha256 abc = digestBytes (hashAfter abc 1)
    rw [sha256, hN]

/-- An engine right after INIT meets the data invariant. -/
theorem dataInv_atPad : DataInv (callAt a56 .atPad 0) where
  hashSoFar _ _ _ := rfl
  blockLoaded _ h := nomatch (show Pos.atPad = .atLdw _ from h)
  loadedSoFar _ h := nomatch (show Pos.atPad = .atLdw _ from h)
  expandedSoFar _ h := nomatch (show Pos.atPad = .atExw _ from h)
  scheduleDone h := nomatch (show Pos.atPad = .atLdv from h)
  roundsSoFar _ h := nomatch (show Pos.atPad = .atRnd _ from h)
  roundsDone h := nomatch (show Pos.atPad = .atAcc from h)
  hashDone h := nomatch (show Pos.atPad = .atFin from h)
  digestDone h := nomatch (show Phase.accept = .done from h)

theorem test_witness_DigestIsReadableAndStableWhileDone :
    ∃ s t : State, ControlInv s ∧ s.phase = .done ∧ HostSilent s ∧ step s = .next t ∧
      s.hostInputs = [⟨false, none⟩] ∧ (∃ u, launch abc s = .next u) :=
  ⟨doneWith [⟨false, none⟩], _, controlInv_doneWith _, rfl, by simp [HostSilent, doneWith], rfl,
    rfl,
    _, rfl⟩
/-- A state for each of the five clauses. -/
theorem test_witness_PhaseMachineHasOneTransition :
    (∃ t, ControlInv (doneWith [⟨true, none⟩]) ∧ step (doneWith [⟨true, none⟩]) = .next t ∧
      (doneWith [⟨true, none⟩]).turn = .reset ∧ (doneWith [⟨true, none⟩]).phase = .done ∧
      t.phase = .accept) ∧
    (∃ t, ControlInv (doneWith [⟨false, some abc⟩]) ∧
      step (doneWith [⟨false, some abc⟩]) = .next t ∧
      (doneWith [⟨false, some abc⟩]).turn = .launch abc ∧
      (doneWith [⟨false, some abc⟩]).phase = .done ∧ t.phase = .accept) ∧
    (∃ t, ControlInv (callAt a56 (.atRnd 63) 0) ∧ step (callAt a56 (.atRnd 63) 0) = .next t ∧
      (callAt a56 (.atRnd 63) 0).turn = .perform (.rnd 63)) ∧
    (∃ t, ControlInv (callAt a56 .atFin 1) ∧ step (callAt a56 .atFin 1) = .next t ∧
      (callAt a56 .atFin 1).turn = .perform .fin ∧ (callAt a56 .atFin 1).phase = .accept ∧
      t.phase = .done) :=
  ⟨⟨_, controlInv_doneWith _, rfl, rfl, rfl, rfl⟩, ⟨_, controlInv_doneWith _, rfl, rfl, rfl, rfl⟩,
    ⟨_, controlInv_callAt rfl (by decide) (by decide), rfl, by decide⟩,
    ⟨_, controlInv_callAt rfl (by decide) (by decide), rfl, by decide, rfl, rfl⟩⟩
theorem test_witness_StepsKeepTheControlInvariant :
    ∃ t, ControlInv (callAt a56 .atAcc 0) ∧ step (callAt a56 .atAcc 0) = .next t :=
  ⟨_, controlInv_callAt rfl (by decide) (by decide), rfl⟩
theorem test_witness_StepsKeepTheDataInvariant :
    (∃ t, ControlInv (callAt a56 .atPad 0) ∧ DataInv (callAt a56 .atPad 0) ∧
      step (callAt a56 .atPad 0) = .next t) ∧
    (∃ t, ControlInv (doneWith [⟨false, some a56⟩]) ∧ DataInv (doneWith [⟨false, some a56⟩]) ∧
      step (doneWith [⟨false, some a56⟩]) = .next t) :=
  ⟨⟨_, controlInv_callAt rfl (by decide) (by decide), dataInv_atPad, rfl⟩,
    ⟨_, controlInv_doneWith _, dataInv_doneWith _, rfl⟩⟩
/-- An engine at LDV with H and W written, and that it takes its guarded step. -/
theorem test_witness_GuardedStepsNeverReadUnwrittenState :
    ∃ g g' : Guarded, WrittenInv g ∧ ControlInv g.state ∧ g.state.pos = .atLdv ∧
      guardedStep g = .next g' :=
  ⟨⟨callAt a56 .atLdv 0, allH ++ allW⟩,
    ⟨{ callAt a56 .atLdv 0 with v := Vars.ofHash initialHash, pos := .atRnd 0 },
      allV ++ (allH ++ allW)⟩,
    ⟨rfl, fun _ h => h, fun h => by cases h⟩, controlInv_callAt rfl (by decide) (by decide), rfl,
    by
      have hturn : (callAt a56 .atLdv 0).turn = .perform .ldv := by decide
      have hread : ∀ x ∈ readsOf .ldv, x ∈ allH ++ allW := by decide
      simp only [guardedStep, hturn]
      rw [Guarded.reading_of_written hread]
      rfl⟩
theorem test_witness_OneBlockIsOneCompression :
    ((callAt a56 .atPad 0).pos = .atPad ∧ (callAt a56 .atPad 0).hostInputs = [] ∧
      (callAt a56 .atPad 0).msgLen ≤ 2 ^ 61 - 1 ∧
      (callAt a56 .atPad 0).blk < blockCount (callAt a56 .atPad 0).msgLen ∧
      (callAt a56 .atPad 0).blk + 1 < blockCount (callAt a56 .atPad 0).msgLen) ∧
    (callAt a56 .atPad 1).blk < blockCount (callAt a56 .atPad 1).msgLen ∧
      (callAt a56 .atPad 1).blk + 1 = blockCount (callAt a56 .atPad 1).msgLen := by decide
theorem test_witness_CallComputesTheDigest :
    a56.length ≤ 2 ^ 61 - 1 ∧ State.reset.pos = .wait ∧ State.reset.hostInputs = [] ∧
      1 < blockCount a56.length := ⟨by decide, rfl, rfl, by decide⟩
/-- Right after reset, and after a call of another message. -/
theorem test_witness_CallLeavesNoResidue :
    ∃ s0 t0, State.reset.hostInputs = [] ∧ (doneWith []).hostInputs = [] ∧
      launch a56 State.reset = .next s0 ∧ launch a56 (doneWith []) = .next t0 :=
  ⟨_, _, rfl, rfl, rfl, rfl⟩
theorem test_witness_CallPerformsTheHashSequence :
    ∃ s0, (doneWith []).hostInputs = [] ∧ launch a56 (doneWith []) = .next s0 := ⟨_, rfl, rfl⟩
theorem test_witness_MessageIsReadOnceInOrder :
    ∃ s0, State.reset.hostInputs = [] ∧ launch a56 State.reset = .next s0 ∧
      messageReadsOf .padblk (callAt abc .atPad 0) = [0, 1, 2] := ⟨_, rfl, rfl, by decide⟩
theorem test_witness_CallIsOverOnlyAtItsEnd :
    ∃ s0, State.reset.hostInputs = [] ∧ launch a56 State.reset = .next s0 ∧
      (263 < 2 + 131 * blockCount a56.length) := ⟨_, rfl, rfl, by decide⟩
/-- An engine in DONE with DG written, one in DONE with nothing but H written, one not in DONE,
  and one
at FIN that takes its guarded step to DONE. -/
theorem test_witness_GuardedDigestReadNeverMeetsUnwrittenState :
    (WrittenInv ⟨doneWith [], allH ++ allDG⟩ ∧ ControlInv (doneWith [])) ∧
    ((doneWith []).phase = .done ∧ ∃ x ∈ allDG, x ∉ allH) ∧
    (callAt a56 .atFin 1).phase ≠ .done ∧
    ∃ g' : Guarded, WrittenInv ⟨callAt a56 .atFin 1, allH⟩ ∧ ControlInv (callAt a56 .atFin 1) ∧
      guardedStep ⟨callAt a56 .atFin 1, allH⟩ = .next g' ∧ g'.state.phase = .done := by
  refine ⟨⟨⟨rfl, fun _ h => List.mem_append_left _ h, fun _ _ h => List.mem_append_right _ h⟩,
    controlInv_doneWith _⟩, ⟨rfl, .DG 0, by decide, by decide⟩, by decide, ?_⟩
  refine ⟨⟨(callAt a56 .atFin 1).setDigest (digestBytes (callAt a56 .atFin 1).H) |>.setPhase .done
    |>.setPos .wait, allDG ++ allH⟩, ⟨rfl, fun _ h => h, fun h => by cases h⟩,
    controlInv_callAt rfl (by decide) (by decide), ?_, rfl⟩
  have hturn : (callAt a56 .atFin 1).turn = .perform .fin := by decide
  have hread : ∀ x ∈ readsOf .fin, x ∈ allH := fun _ h => h
  simp only [guardedStep, hturn]
  rw [Guarded.reading_of_written hread]
  rfl
/-- Two engines at different positions, both of which step. -/
theorem test_witness_EnginesAreIndependent :
    ∃ S T U : System 2, (0 : Fin 2) ≠ 1 ∧ S.stepAt 0 = .next T ∧ T.stepAt 1 = .next U :=
  ⟨#v[callAt abc .atInit 0, callAt a56 .atAcc 0], _, _, by decide, rfl, rfl⟩

end Sys2Proof.Tests
end

/-! Settles the statement about the byte packing (00_scope.md R14). The byte equations of `be32` and
`bytes32` are laws of the model; here are the ones of `bytes64` and the inverse law. -/

namespace Sys2Proof.Proofs.BytePacking

open Sys2Proof.Machine

/-- The bytes of a word are the digits of its number in base 256, so packing them gives the word
back (00_scope.md R14). -/
theorem be32_bytes32 (x : Word) :
    be32 (bytes32 x)[0] (bytes32 x)[1] (bytes32 x)[2] (bytes32 x)[3] = x := by
  have h0 : (bytes32 x)[0].toNat = x.toNat / 2 ^ 24 % 256 := bytes32_toNat x 0
  have h1 : (bytes32 x)[1].toNat = x.toNat / 2 ^ 16 % 256 := bytes32_toNat x 1
  have h2 : (bytes32 x)[2].toNat = x.toNat / 2 ^ 8 % 256 := bytes32_toNat x 2
  have h3 : (bytes32 x)[3].toNat = x.toNat / 2 ^ 0 % 256 := bytes32_toNat x 3
  have hx : x.toNat < 2 ^ 32 := x.isLt
  apply BitVec.eq_of_toNat_eq
  rw [be32_toNat, h0, h1, h2, h3]
  omega

@[simp] theorem bytes64_length (n : Nat) : (bytes64 n).length = 8 := by
  simp [bytes64]

/-- Byte `k` of `bytes64`, as a number (00_scope.md R14). -/
theorem bytes64_getD_toNat (n : Nat) (k : Fin 8) :
    ((bytes64 n).getD k.val 0).toNat = n / 2 ^ (8 * (7 - k.val)) % 256 := by
  have hbyte : (bytes64 n).getD k.val 0 = BitVec.ofNat 8 (n >>> (8 * (7 - k.val))) := by
    simp [bytes64]
  rw [hbyte, BitVec.toNat_ofNat, Nat.shiftRight_eq_div_pow]

/-- Settles O25: each conjunct is the law of one packing function; `bytes64` needs no bound. -/
theorem bytePackingIsBigEndian : Obligations.BytePackingIsBigEndian :=
  ⟨be32_toNat, bytes32_toNat, be32_bytes32,
    fun n _ => ⟨bytes64_length n, bytes64_getD_toNat n⟩⟩

end Sys2Proof.Proofs.BytePacking

/-! Settles the statements about the two constant tables (10_state.md R28, R29). The primes are found
by the gaps between them; a table entry `x` is the root `q 2^32 + x` whose whole part `q` is small. -/

namespace Sys2Proof.Proofs.Constants

open Sys2Proof.Machine

/-- The first 64 primes in order, as `nth_prime_eq_firstPrimes` says. -/
def firstPrimes : Vector Nat 64 :=
  #v[2, 3, 5, 7, 11, 13, 17, 19, 23, 29, 31, 37, 41, 43, 47, 53, 59, 61, 67, 71, 73, 79, 83, 89, 97,
    101, 103, 107, 109, 113, 127, 131, 137, 139, 149, 151, 157, 163, 167, 173, 179, 181, 191, 193,
    197, 199, 211, 223, 227, 229, 233, 239, 241, 251, 257, 263, 269, 271, 277, 281, 283, 293, 307,
    311]

theorem prime_of_mem_firstPrimes : ∀ p ∈ firstPrimes.toList, p.Prime := by
  simp only [firstPrimes, List.forall_mem_cons, Vector.toList_mk]
  norm_num

theorem firstPrimes_lt_succ :
    ∀ j : Fin 63, firstPrimes[j.val] < firstPrimes[j.val + 1] := by decide

/-- Every number between two neighbours of the table has a proper divisor. -/
theorem exists_divisor_between_firstPrimes :
    ∀ j : Fin 63, ∀ m ∈ List.range' (firstPrimes[j.val] + 1)
        (firstPrimes[j.val + 1] - firstPrimes[j.val] - 1),
      ∃ d ∈ [2, 3, 5, 7, 11, 13, 17], 2 ≤ d ∧ d < m ∧ d ∣ m := by decide

theorem not_prime_between_firstPrimes (j : Fin 63) (m : Nat) (hlo : firstPrimes[j.val] < m)
    (hhi : m < firstPrimes[j.val + 1]) : ¬ m.Prime := by
  obtain ⟨d, -, h2, hlt, hdvd⟩ :=
    exists_divisor_between_firstPrimes j m (List.mem_range'_1.mpr (by omega))
  exact Nat.not_prime_of_dvd_of_lt hdvd h2 hlt

/-- If `b` is the first number above the `k`-th one with the property that has it too, `b` is the
next one. -/
theorem nth_succ_of_gap {p : Nat → Prop} (hp : (Set.ofPred p).Infinite) {k b : Nat}
    (hlt : Nat.nth p k < b) (hb : p b) (gap : ∀ m, Nat.nth p k < m → m < b → ¬ p m) :
    Nat.nth p (k + 1) = b := by
  have hnext : Nat.nth p k < Nat.nth p (k + 1) := Nat.nth_strictMono hp k.lt_succ_self
  have hle : Nat.nth p (k + 1) ≤ b :=
    not_lt.mp fun h => absurd (Nat.le_nth_of_lt_nth_succ h hb) (not_le.mpr hlt)
  exact hle.antisymm (not_lt.mp fun h => gap _ hnext h (Nat.nth_mem_of_infinite hp _))

theorem nth_prime_eq_firstPrimes (j : Nat) (hj : j < 64) :
    Nat.nth Nat.Prime j = firstPrimes[j] := by
  induction j with
  | zero => exact Nat.nth_prime_zero_eq_two
  | succ j ih =>
    have hj' : j < 63 := by omega
    have ih := ih (by omega)
    apply nth_succ_of_gap Nat.infinite_setOfPred_prime
    · rw [ih]
      exact firstPrimes_lt_succ ⟨j, hj'⟩
    · exact prime_of_mem_firstPrimes _ (by simp)
    · rw [ih]
      exact not_prime_between_firstPrimes ⟨j, hj'⟩

/-- The number with whole part `q` in front of the 32 bits `x`. -/
def withWholePart (q : Nat) (x : Word) : Nat := q * 2 ^ 32 + x.toNat

theorem withWholePart_mod (q : Nat) (x : Word) : withWholePart q x % 2 ^ 32 = x.toNat := by
  have := x.isLt
  unfold withWholePart
  omega

/-- The cube roots of the primes below 343 have a whole part below 7. -/
theorem K_brackets_cubeRoot : ∀ j : Fin 64, ∃ q < 7,
    withWholePart q (K j) ^ 3 ≤ firstPrimes[j] * 2 ^ 96 ∧
      firstPrimes[j] * 2 ^ 96 < (withWholePart q (K j) + 1) ^ 3 := by decide

/-- The square roots of the primes below 25 have a whole part below 5. -/
theorem IV_brackets_squareRoot : ∀ i : Fin 8, ∃ q < 5,
    withWholePart q (IV i) ^ 2 ≤ firstPrimes[i] * 2 ^ 64 ∧
      firstPrimes[i] * 2 ^ 64 < (withWholePart q (IV i) + 1) ^ 2 := by decide

/-- Settles O27: the root is the table entry behind its whole part. -/
theorem roundConstantsAreCubeRoots : Obligations.RoundConstantsAreCubeRoots := by
  intro j
  obtain ⟨q, -, hle, hlt⟩ := K_brackets_cubeRoot j
  rw [nth_prime_eq_firstPrimes j.val j.isLt]
  exact ⟨withWholePart q (K j), hle, hlt, (withWholePart_mod q (K j)).symm⟩

/-- Settles O28: the root is the table entry behind its whole part. -/
theorem initialValuesAreSquareRoots : Obligations.InitialValuesAreSquareRoots := by
  intro i
  obtain ⟨q, -, hle, hlt⟩ := IV_brackets_squareRoot i
  rw [nth_prime_eq_firstPrimes i.val (by omega)]
  exact ⟨withWholePart q (IV i), hle, hlt, (withWholePart_mod q (IV i)).symm⟩

end Sys2Proof.Proofs.Constants

/-! Settles the statements about what an operation reads and writes (10_state.md R20): a rule for each
named update, then the frame and the dependence of each operation. -/

namespace Sys2Proof.Proofs.Elements

open Sys2Proof.Machine Sys2Proof.Safety

/-! ## The groups of elements -/

@[simp] theorem mem_allH {x : Element} : x ∈ allH ↔ ∃ i, x = .H i := by simp [allH, eq_comm]
@[simp] theorem mem_allV {x : Element} : x ∈ allV ↔ ∃ i, x = .v i := by simp [allV, eq_comm]
@[simp] theorem mem_allW {x : Element} : x ∈ allW ↔ ∃ j, x = .W j := by simp [allW, eq_comm]
@[simp] theorem mem_allB {x : Element} : x ∈ allB ↔ ∃ q, x = .B q := by simp [allB, eq_comm]
@[simp] theorem mem_allDG {x : Element} : x ∈ allDG ↔ ∃ q, x = .DG q := by simp [allDG, eq_comm]

/-- The working variables are the eight that `get` numbers (10_state.md R22). -/
theorem Vars_ext_get {v w : Vars} (h : ∀ i, v.get i = w.get i) : v = w := by
  cases v
  cases w
  simpa [Fin.forall_fin_succ, Vars.get] using h

/-! Two states agree on a whole group exactly when the register is the same. -/

section
variable {s t : State}

theorem same_allH_iff : (∀ x ∈ allH, Element.Same s t x) ↔ s.H = t.H := by
  simp only [mem_allH, forall_exists_index, forall_eq_apply_imp_iff]
  exact ⟨fun h => Vector.ext fun i hi => h ⟨i, hi⟩, fun h i => by rw [Element.Same, h]⟩

theorem same_allV_iff : (∀ x ∈ allV, Element.Same s t x) ↔ s.v = t.v := by
  simp only [mem_allV, forall_exists_index, forall_eq_apply_imp_iff]
  exact ⟨Vars_ext_get, fun h i => by rw [Element.Same, h]⟩

theorem same_allB_iff : (∀ x ∈ allB, Element.Same s t x) ↔ s.B = t.B := by
  simp only [mem_allB, forall_exists_index, forall_eq_apply_imp_iff]
  exact ⟨fun h => Vector.ext fun i hi => h ⟨i, hi⟩, fun h i => by rw [Element.Same, h]⟩

theorem same_allDG_iff : (∀ x ∈ allDG, Element.Same s t x) ↔ s.DG = t.DG := by
  simp only [mem_allDG, forall_exists_index, forall_eq_apply_imp_iff]
  exact ⟨fun h => Vector.ext fun i hi => h ⟨i, hi⟩, fun h i => by rw [Element.Same, h]⟩

end

/-! ## What each named update leaves as it was -/

section
variable {s t : State} {x : Element}

@[simp] theorem same_setPos_iff {p : Pos} :
    Element.Same s (t.setPos p) x ↔ Element.Same s t x := by cases x <;> rfl
@[simp] theorem same_setPhase_iff {p : Phase} :
    Element.Same s (t.setPhase p) x ↔ Element.Same s t x := by cases x <;> rfl
@[simp] theorem same_setBlk_iff {n : Nat} :
    Element.Same s (t.setBlk n) x ↔ Element.Same s t x := by cases x <;> rfl

@[simp] theorem same_advanceBlock_iff :
    Element.Same s t.advanceBlock x ↔ Element.Same s t x := by
  unfold State.advanceBlock
  split <;> simp

theorem same_setHash {H : Vector Word 8} (hx : x ∉ allH) : Element.Same s (s.setHash H) x := by
  cases x with
  | H i => exact absurd (mem_allH.mpr ⟨i, rfl⟩) hx
  | _ => rfl

theorem same_setVars {v : Vars} (hx : x ∉ allV) : Element.Same s (s.setVars v) x := by
  cases x with
  | v i => exact absurd (mem_allV.mpr ⟨i, rfl⟩) hx
  | _ => rfl

theorem same_setBlock {B : Vector Byte 64} (hx : x ∉ allB) : Element.Same s (s.setBlock B) x := by
  cases x with
  | B q => exact absurd (mem_allB.mpr ⟨q, rfl⟩) hx
  | _ => rfl

theorem same_setDigest {DG : Vector Byte 32} (hx : x ∉ allDG) :
    Element.Same s (s.setDigest DG) x := by
  cases x with
  | DG q => exact absurd (mem_allDG.mpr ⟨q, rfl⟩) hx
  | _ => rfl

theorem same_setWord {j : Fin 64} {w : Word} (hx : x ∉ [Element.W j]) :
    Element.Same s (s.setWord j w) x := by
  cases x with
  | W k =>
    have hne : j.val ≠ k.val := fun e => hx (by simp [Fin.ext e])
    exact (Vector.getElem_set_ne j.isLt k.isLt hne).symm
  | _ => rfl

end

section
variable (s : State)

@[simp] theorem advanceBlock_H : s.advanceBlock.H = s.H := by
  unfold State.advanceBlock
  split <;> rfl
@[simp] theorem advanceBlock_phase : s.advanceBlock.phase = s.phase := by
  unfold State.advanceBlock
  split <;> rfl
@[simp] theorem advanceBlock_msg : s.advanceBlock.msg = s.msg := by
  unfold State.advanceBlock
  split <;> rfl
@[simp] theorem advanceBlock_msgLen : s.advanceBlock.msgLen = s.msgLen := by
  unfold State.advanceBlock
  split <;> rfl
@[simp] theorem advanceBlock_hostInputs : s.advanceBlock.hostInputs = s.hostInputs := by
  unfold State.advanceBlock
  split <;> rfl

end

/-! ## The frame of an operation -/

theorem exec_same_of_not_mem_writesOf {i : Instr} {s t : State} {x : Element}
    (h : exec i s = .next t) (hx : x ∉ writesOf i) : Element.Same s t x := by
  cases i with
  | init =>
    obtain rfl := Host.Outcome.next.inj h
    simpa using same_setHash hx
  | padblk =>
    obtain rfl := Host.Outcome.next.inj h
    simpa using same_setBlock hx
  | ldv =>
    obtain rfl := Host.Outcome.next.inj h
    simpa using same_setVars hx
  | acc =>
    obtain rfl := Host.Outcome.next.inj h
    simpa using same_setHash hx
  | fin =>
    obtain rfl := Host.Outcome.next.inj h
    simpa using same_setDigest hx
  | ldw j =>
    by_cases hj : j.val < 16
    · simp only [exec, execLdw, dif_pos hj] at h
      obtain rfl := Host.Outcome.next.inj h
      simpa using same_setWord hx
    · rw [exec_ldw_reserved j s (by omega)] at h
      cases h
  | exw j =>
    by_cases hj : 16 ≤ j.val
    · simp only [exec, execExw, dif_pos hj] at h
      obtain rfl := Host.Outcome.next.inj h
      simpa using same_setWord hx
    · rw [exec_exw_reserved j s (by omega)] at h
      cases h
  | rnd j =>
    obtain rfl := Host.Outcome.next.inj h
    simpa using same_setVars hx

/-- The shared part of the frame: what is no element of the data state. -/
theorem exec_control_frame {i : Instr} {s t : State} (h : exec i s = .next t) :
    (i ≠ .init → i ≠ .fin → t.phase = s.phase) ∧ (i ≠ .init → i ≠ .acc → t.blk = s.blk) ∧
      t.msg = s.msg ∧ t.msgLen = s.msgLen ∧ t.hostInputs = s.hostInputs := by
  obtain ⟨rfl, rfl⟩ | ⟨rfl, rfl⟩ | ⟨rfl, rfl⟩ | ⟨rfl, rfl⟩ | ⟨rfl, rfl⟩ | ⟨j, hj, rfl, rfl⟩ |
    ⟨j, hj, rfl, rfl⟩ | ⟨j, rfl, rfl⟩ := exec_cases h <;> simp

/-- Settles O21. -/
theorem operationsWriteOnlyTheirWriteSet : Obligations.OperationsWriteOnlyTheirWriteSet :=
  fun _ _ _ h => ⟨fun _ => exec_same_of_not_mem_writesOf h, exec_control_frame h⟩

/-! ## What an operation's result depends on -/

theorem padBlock_congr {s t : State} (hm : s.msg = t.msg) (hL : s.msgLen = t.msgLen) (i : Nat) :
    s.padBlock i = t.padBlock i := by
  unfold State.padBlock
  congr 1
  funext q
  exact State.padByte_congr (State.memRead_congr hm hL _) hL

theorem advanceBlock_congr {s t : State} (hb : s.blk = t.blk) (hL : s.msgLen = t.msgLen) :
    s.advanceBlock.pos = t.advanceBlock.pos ∧ s.advanceBlock.blk = t.advanceBlock.blk := by
  by_cases hlt : t.blk + 1 < blockCount t.msgLen <;>
    simp [State.advanceBlock, State.blocks, hb, hL, hlt]

theorem loadWord_congr {s t : State} {j : Fin 64} (hj : j.val < 16)
    (h : ∀ x ∈ readsOf (.ldw j), Element.Same s t x) :
    loadWord s.B j.val hj = loadWord t.B j.val hj := by
  have byte (k : Nat) (hk : k < 4) : s.B[4 * j.val + k] = t.B[4 * j.val + k] := by
    have h := h (.B (Fin.ofNat 64 (4 * j.val + k)))
      (List.mem_map.mpr ⟨k, List.mem_range.mpr hk, rfl⟩)
    have hmod : (4 * j.val + k) % 64 = 4 * j.val + k := Nat.mod_eq_of_lt (by omega)
    simpa [Element.Same, hmod] using h
  unfold loadWord
  rw [byte 1 (by omega), byte 2 (by omega), byte 3 (by omega)]
  exact congrArg (be32 · _ _ _) (byte 0 (by omega))

theorem expandWord_congr_reads {s t : State} {j : Fin 64} (hj : 16 ≤ j.val)
    (h : ∀ x ∈ readsOf (.exw j), Element.Same s t x) :
    expandWord s.W j.val hj j.isLt = expandWord t.W j.val hj j.isLt := by
  have entry (k : Nat) : (j.val - k) % 64 = j.val - k := Nat.mod_eq_of_lt (by omega)
  simp only [readsOf, List.forall_mem_cons, Element.Same, Fin.getElem_fin, Fin.ofNat, entry] at h
  obtain ⟨h16, h15, h7, h2, -⟩ := h
  simp only [expandWord, h16, h15, h7, h2]

/-- Settles O20, operation by operation: the new value of the register an operation writes is a
function of what it reads. -/
theorem operationsReadOnlyTheirReadSet : Obligations.OperationsReadOnlyTheirReadSet := by
  intro i s t s' hblk hm hL hread h
  obtain ⟨rfl, rfl⟩ | ⟨rfl, rfl⟩ | ⟨rfl, rfl⟩ | ⟨rfl, rfl⟩ | ⟨rfl, rfl⟩ | ⟨j, hj, rfl, rfl⟩ |
    ⟨j, hj, rfl, rfl⟩ | ⟨j, rfl, rfl⟩ := exec_cases h
  · -- INIT
    exact ⟨_, exec_init t, same_allH_iff.mpr rfl, rfl, rfl⟩
  · -- PADBLK
    refine ⟨_, exec_padblk t, same_allB_iff.mpr ?_, rfl, hblk⟩
    simp only [hblk, padBlock_congr hm hL]
  · -- LDV
    have hH : s.H = t.H := same_allH_iff.mp hread
    exact ⟨_, exec_ldv t, same_allV_iff.mpr (by rw [hH]), rfl, hblk⟩
  · -- ACC
    obtain ⟨hH, hv⟩ := List.forall_mem_append.mp hread
    have hH : s.H = t.H := same_allH_iff.mp hH
    have hv : s.v = t.v := same_allV_iff.mp hv
    exact ⟨_, exec_acc t, same_allH_iff.mpr (by simp [hH, hv]), advanceBlock_congr hblk hL⟩
  · -- FIN
    have hH : s.H = t.H := same_allH_iff.mp hread
    exact ⟨_, exec_fin t, same_allDG_iff.mpr (by simp only [hH]), rfl, hblk⟩
  · -- LDW
    refine ⟨_, exec_ldw j t hj, ?_, rfl, hblk⟩
    simp [writesOf, Element.Same, loadWord_congr hj hread]
  · -- EXW
    refine ⟨_, exec_exw j t hj, ?_, rfl, hblk⟩
    simp [writesOf, Element.Same, expandWord_congr_reads hj hread]
  · -- RND
    obtain ⟨hW, hv⟩ := List.forall_mem_cons.mp hread
    have hW : s.W[j] = t.W[j] := hW
    have hv : s.v = t.v := same_allV_iff.mp hv
    exact ⟨_, exec_rnd j t, same_allV_iff.mpr (by simp only [hW, hv]), rfl, hblk⟩

end Sys2Proof.Proofs.Elements

/-! Settles the statements about the reset state (10_state.md R34) and the control invariant (R27, R35
items 1 to 3; 20_memory.md R41). -/

namespace Sys2Proof.Proofs.Control

open Sys2Proof.Machine Sys2Proof.Safety

/-- A message of a legal length has at most 2^55 + 1 blocks (40_padding_controller.md R83). -/
theorem blockCount_le {L : Nat} (h : L ≤ Config.maxLenBytes) : blockCount L ≤ 2 ^ 55 + 1 := by
  unfold Config.maxLenBytes at h
  unfold blockCount
  omega

/-- Settles O43: each value is the one the reset state is built from. -/
theorem resetStateHoldsTheSpecsValues : Obligations.ResetStateHoldsTheSpecsValues :=
  ⟨rfl, rfl, rfl, rfl, rfl, rfl, rfl, rfl, rfl, rfl, rfl, rfl⟩

/-- Settles O47: the reset state waits for its first call, of which it holds nothing. -/
theorem resetMeetsTheControlInvariant : Obligations.ResetMeetsTheControlInvariant := fun _ =>
  { legalPos := rfl
    doneWaits := fun _ => rfl
    acceptingWaitIsReset := fun _ _ => rfl
    callAccepts := fun h => absurd rfl h
    blkInCall := fun h => absurd rfl h
    blkFits := Nat.two_pow_pos 56
    msgCanonical := State.reset_msg_wf
    msgWithin := rfl
    msgLegal := Nat.zero_le _ }

/-- Taking a host input keeps the control invariant, which does not read the inputs. -/
theorem controlInv_popInput {s : State} (h : ControlInv s) : ControlInv s.popInput :=
  { legalPos := h.legalPos
    doneWaits := h.doneWaits
    acceptingWaitIsReset := fun hw ha =>
      (congrArg State.popInput (h.acceptingWaitIsReset hw ha)).trans rfl
    callAccepts := h.callAccepts
    blkInCall := h.blkInCall
    blkFits := h.blkFits
    msgCanonical := h.msgCanonical
    msgWithin := h.msgWithin
    msgLegal := h.msgLegal }

/-- A LAUNCH leads to the start of a call of the launched message. -/
theorem launch_controlInv {M : List Byte} {s t : State} (hs : ControlInv s)
    (h : launch M s = .next t) : ControlInv t := by
  obtain ⟨-, hL, rfl⟩ := launch_eq_next_iff.mp h
  exact
    { legalPos := rfl
      doneWaits := nofun
      acceptingWaitIsReset := nofun
      callAccepts := fun _ => rfl
      blkInCall := fun _ h => absurd rfl h
      blkFits := hs.blkFits
      msgCanonical := Memory.wf_ofBytes M
      msgWithin := Memory.within_ofBytes M
      msgLegal := hL }

/-- What is left to show when the engine has moved to a position within the blocks of its call. -/
theorem controlInv_of_inBlocks {s t : State} (hs : ControlInv s) (hmsg : t.msg = s.msg)
    (hlen : t.msgLen = s.msgLen) (hphase : t.phase = .accept) (hlegal : t.pos.legal = true)
    (hwait : t.pos ≠ .wait) (hblk : t.blk < s.blocks) : ControlInv t :=
  { legalPos := hlegal
    doneWaits := fun h => by rw [hphase] at h; cases h
    acceptingWaitIsReset := fun h => absurd h hwait
    callAccepts := fun _ => hphase
    blkInCall := fun _ _ => by rwa [State.blocks, hlen]
    blkFits := by
      have := blockCount_le hs.msgLegal
      unfold State.blocks at hblk
      omega
    msgCanonical := hmsg ▸ hs.msgCanonical
    msgWithin := by rw [hmsg, hlen]; exact hs.msgWithin
    msgLegal := hlen ▸ hs.msgLegal }

theorem nextAfterLdw_legal (j : Fin 64) : (nextAfterLdw j).legal = true := by
  unfold nextAfterLdw
  split
  · exact decide_eq_true (by simp only; omega)
  · rfl

theorem nextAfterExw_legal {j : Fin 64} (h : 16 ≤ j.val) : (nextAfterExw j).legal = true := by
  unfold nextAfterExw
  split
  · exact decide_eq_true (by simp only; omega)
  · rfl

theorem nextAfterRnd_legal (j : Fin 64) : (nextAfterRnd j).legal = true := by
  unfold nextAfterRnd
  split <;> rfl

theorem nextAfterLdw_ne_wait (j : Fin 64) : nextAfterLdw j ≠ .wait := by
  unfold nextAfterLdw
  split <;> nofun

theorem nextAfterExw_ne_wait (j : Fin 64) : nextAfterExw j ≠ .wait := by
  unfold nextAfterExw
  split <;> nofun

theorem nextAfterRnd_ne_wait (j : Fin 64) : nextAfterRnd j ≠ .wait := by
  unfold nextAfterRnd
  split <;> nofun

/-- Every operation performed at its position keeps the control invariant. -/
theorem exec_controlInv {i : Instr} {s t : State} (hs : ControlInv s) (hpos : s.pos = Pos.ofInstr i)
    (h : exec i s = .next t) : ControlInv t := by
  have hphase : s.phase = .accept := hs.callAccepts (hpos ▸ ofInstr_ne_wait i)
  have hblk (hi : i ≠ .init) : s.blk < s.blocks :=
    hs.blkInCall (hpos ▸ ofInstr_ne_wait i) (by rw [hpos]; cases i <;> simp_all [Pos.ofInstr])
  obtain ⟨rfl, rfl⟩ | ⟨rfl, rfl⟩ | ⟨rfl, rfl⟩ | ⟨rfl, rfl⟩ | ⟨rfl, rfl⟩ | ⟨j, hj, rfl, rfl⟩ |
    ⟨j, hj, rfl, rfl⟩ | ⟨j, rfl, rfl⟩ := exec_cases h
  · -- INIT
    exact controlInv_of_inBlocks hs rfl rfl rfl rfl nofun (Nat.succ_pos _)
  · -- PADBLK
    exact controlInv_of_inBlocks hs rfl rfl hphase rfl nofun (hblk nofun)
  · -- LDV
    exact controlInv_of_inBlocks hs rfl rfl hphase rfl nofun (hblk nofun)
  · -- ACC
    obtain ⟨hnext, e⟩ | ⟨-, e⟩ := (s.setHash (addVars s.H s.v)).advanceBlock_cases <;> rw [e]
    · exact controlInv_of_inBlocks hs rfl rfl hphase rfl nofun hnext
    · exact controlInv_of_inBlocks hs rfl rfl hphase rfl nofun (hblk nofun)
  · -- FIN, the one operation that leaves the call
    exact
      { legalPos := rfl
        doneWaits := fun _ => rfl
        acceptingWaitIsReset := nofun
        callAccepts := fun h => absurd rfl h
        blkInCall := fun h => absurd rfl h
        blkFits := hs.blkFits
        msgCanonical := hs.msgCanonical
        msgWithin := hs.msgWithin
        msgLegal := hs.msgLegal }
  · -- LDW
    exact controlInv_of_inBlocks hs rfl rfl hphase (nextAfterLdw_legal j) (nextAfterLdw_ne_wait j)
      (hblk nofun)
  · -- EXW
    exact controlInv_of_inBlocks hs rfl rfl hphase (nextAfterExw_legal hj) (nextAfterExw_ne_wait j)
      (hblk nofun)
  · -- RND
    exact controlInv_of_inBlocks hs rfl rfl hphase (nextAfterRnd_legal j) (nextAfterRnd_ne_wait j)
      (hblk nofun)

/-- Settles O46, by what a step can have done. -/
theorem stepsKeepTheControlInvariant : Obligations.StepsKeepTheControlInvariant := by
  intro s t hs h
  obtain ⟨_, rest, -, -, -, rfl⟩ | ⟨_, _, M, -, -, -, -, hl⟩ | ⟨-, -, -, rfl⟩ |
    ⟨i, hpos, -, -, -, he⟩ := step_cases h
  · exact resetMeetsTheControlInvariant rest
  · exact launch_controlInv (controlInv_popInput hs) hl
  · exact controlInv_popInput hs
  · exact exec_controlInv (controlInv_popInput hs) hpos he

end Sys2Proof.Proofs.Control

/-! Settles the statements about the data invariant (10_state.md R35 items 4 and 5): first the
recurrence of the schedule (41_message_scheduler.md R99), then the invariant as what one position
asks of the registers, then one lemma for each operation. -/

namespace Sys2Proof.Proofs.Data

open Sys2Proof.Machine Sys2Proof.Safety Sys2Proof.Proofs.Control

/-! ## The schedule -/

/-- An expanded word depends on the earlier entries only (41_message_scheduler.md R98). -/
theorem expandWord_congr {W W' : Vector Word 64} {j : Nat} (lo : 16 ≤ j) (hi : j < 64)
    (h : ∀ i : Fin 64, i.val < j → W[i] = W'[i]) : expandWord W j lo hi = expandWord W' j lo hi := by
  have entry (i : Nat) (hij : i < j) : W[i]'(by omega) = W'[i]'(by omega) := h ⟨i, by omega⟩ hij
  simp only [expandWord, entry (j - 16) (by omega), entry (j - 15) (by omega),
    entry (j - 7) (by omega), entry (j - 2) (by omega)]

/-- An entry of the schedule is the one its own step computed. -/
theorem schedule_getElem (B : Vector Byte 64) (j : Fin 64) :
    (schedule B)[j] = (scheduleEntry B (scheduleTo B (Vector.ofFn fun _ => 0) j.val) j)[j] := by
  rw [schedule, scheduleTo_stable B _ (j.val + 1) 64 (by omega) (Nat.le_refl 64) j (by omega),
    scheduleTo_succ B _ j.val j.isLt]

/-- The first 16 entries come from the block (41_message_scheduler.md R99). -/
theorem schedule_load (B : Vector Byte 64) (j : Fin 64) (h : j.val < 16) :
    (schedule B)[j] = loadWord B j.val h := by
  rw [schedule_getElem, scheduleEntry, dif_pos h]
  exact Vector.getElem_set_self _

/-- The later entries come from the earlier ones (41_message_scheduler.md R99). -/
theorem schedule_expand (B : Vector Byte 64) (j : Fin 64) (h : 16 ≤ j.val) :
    (schedule B)[j] = expandWord (schedule B) j.val h j.isLt := by
  rw [schedule_getElem, scheduleEntry, dif_neg (Nat.not_lt.mpr h)]
  refine (Vector.getElem_set_self _).trans (expandWord_congr h j.isLt fun i hi => ?_)
  exact (scheduleTo_stable B _ j.val 64 (by omega) (Nat.le_refl 64) i hi).symm

/-- The first `n` entries of `W` are those of the schedule of `B`. -/
def ScheduledTo (B : Vector Byte 64) (W : Vector Word 64) (n : Nat) : Prop :=
  ∀ i : Fin 64, i.val < n → W[i] = (schedule B)[i]

theorem scheduledTo_zero (B : Vector Byte 64) (W : Vector Word 64) : ScheduledTo B W 0 := nofun

theorem ScheduledTo.eq_schedule {B : Vector Byte 64} {W : Vector Word 64}
    (h : ScheduledTo B W 64) : W = schedule B :=
  Vector.ext fun i hi => h ⟨i, hi⟩ hi

/-- Writing entry `j` of the schedule makes one entry more agree. -/
theorem ScheduledTo.set {B : Vector Byte 64} {W : Vector Word 64} {j : Fin 64} {x : Word}
    (h : ScheduledTo B W j.val) (hx : x = (schedule B)[j]) :
    ScheduledTo B (W.set j.val x) (j.val + 1) := by
  intro i hi
  by_cases hij : i = j
  · subst hij
    exact (Vector.getElem_set_self _).trans hx
  · have hne : j.val ≠ i.val := fun e => hij (Fin.ext e.symm)
    exact (Vector.getElem_set_ne _ _ hne).trans (h i (by omega))

theorem ScheduledTo.load {B : Vector Byte 64} {W : Vector Word 64} {j : Fin 64}
    (h : ScheduledTo B W j.val) (hj : j.val < 16) :
    ScheduledTo B (W.set j.val (loadWord B j.val hj)) (j.val + 1) :=
  h.set (schedule_load B j hj).symm

theorem ScheduledTo.expand {B : Vector Byte 64} {W : Vector Word 64} {j : Fin 64}
    (h : ScheduledTo B W j.val) (hj : 16 ≤ j.val) :
    ScheduledTo B (W.set j.val (expandWord W j.val hj j.isLt)) (j.val + 1) :=
  h.set ((expandWord_congr hj j.isLt h).trans (schedule_expand B j hj).symm)

/-! ## The invariant, position by position -/

/-- H is the hash state after the blocks before block `blk`. -/
def HashSoFar (s : State) : Prop := s.H = hashAfter s.message s.blk

/-- What the data invariant asks of the registers at a position. -/
def HoldsAt (s : State) : Pos → Prop
  | .wait => True
  | .atInit => True
  | .atPad => HashSoFar s
  | .atLdw j => HashSoFar s ∧ s.B = currentBlock s ∧ ScheduledTo (currentBlock s) s.W j.val
  | .atExw j => HashSoFar s ∧ ScheduledTo (currentBlock s) s.W j.val
  | .atLdv => HashSoFar s ∧ s.W = schedule (currentBlock s)
  | .atRnd j =>
    HashSoFar s ∧ s.W = schedule (currentBlock s) ∧ s.v = roundsTo (Vars.ofHash s.H) s.W j.val
  | .atAcc => HashSoFar s ∧ s.v = rounds (Vars.ofHash s.H) (schedule (currentBlock s))
  | .atFin => s.H = hashAfter s.message s.blocks ∧ s.blk + 1 = s.blocks

/-- What the data invariant asks in DONE: the call's result stands in the registers. -/
def HoldsResult (s : State) : Prop :=
  s.DG = sha256 s.message ∧ s.DG = digestBytes s.H ∧ s.H = hashAfter s.message s.blocks ∧
    s.blk + 1 = s.blocks

theorem holdsAt_of_dataInv {s : State} (h : DataInv s) : HoldsAt s s.pos := by
  have hash : s.pos ≠ .wait → s.pos ≠ .atInit → s.pos ≠ .atFin → HashSoFar s := h.hashSoFar
  cases hp : s.pos <;> rw [hp] at hash
  case wait => trivial
  case atInit => trivial
  case atPad => exact hash nofun nofun nofun
  case atLdw j => exact ⟨hash nofun nofun nofun, h.blockLoaded j hp, h.loadedSoFar j hp⟩
  case atExw j => exact ⟨hash nofun nofun nofun, h.expandedSoFar j hp⟩
  case atLdv => exact ⟨hash nofun nofun nofun, h.scheduleDone hp⟩
  case atRnd j => exact ⟨hash nofun nofun nofun, h.roundsSoFar j hp⟩
  case atAcc => exact ⟨hash nofun nofun nofun, h.roundsDone hp⟩
  case atFin => exact h.hashDone hp

theorem dataInv_of_holdsAt {s : State} (h : HoldsAt s s.pos)
    (hdone : s.phase = .done → HoldsResult s) : DataInv s where
  hashSoFar h1 h2 h3 := by
    cases hp : s.pos <;> rw [hp] at h h1 h2 h3
    case wait => exact absurd rfl h1
    case atInit => exact absurd rfl h2
    case atFin => exact absurd rfl h3
    case atPad => exact h
    all_goals exact h.1
  blockLoaded j hp := by rw [hp] at h; exact h.2.1
  loadedSoFar j hp := by rw [hp] at h; exact h.2.2
  expandedSoFar j hp := by rw [hp] at h; exact h.2
  scheduleDone hp := by rw [hp] at h; exact h.2
  roundsSoFar j hp := by rw [hp] at h; exact h.2
  roundsDone hp := by rw [hp] at h; exact h.2
  hashDone hp := by rw [hp] at h; exact h
  digestDone := hdone

/-- During a call only the position asks something of the registers. -/
theorem dataInv_of_accept {s : State} (hphase : s.phase = .accept) (h : HoldsAt s s.pos) :
    DataInv s :=
  dataInv_of_holdsAt h fun hd => by rw [hphase] at hd; cases hd

/-! ## The operations -/

section
variable (s : State)

@[simp] theorem currentBlock_setBlock (B : Vector Byte 64) :
    currentBlock (s.setBlock B) = currentBlock s := rfl
@[simp] theorem currentBlock_setWord (j : Fin 64) (x : Word) :
    currentBlock (s.setWord j x) = currentBlock s := rfl
@[simp] theorem currentBlock_setVars (v : Vars) : currentBlock (s.setVars v) = currentBlock s := rfl
@[simp] theorem currentBlock_setPos (p : Pos) : currentBlock (s.setPos p) = currentBlock s := rfl

end

/-- INIT: before the first block H is the initial hash. -/
theorem execInit_dataInv {s t : State} (h : execInit s = .next t) : DataInv t := by
  obtain rfl := Host.Outcome.next.inj h
  exact dataInv_of_accept rfl (by simp [HoldsAt, HashSoFar, hashAfter])

/-- PADBLK: B is the current block, as the bytewise form of the padding delivers it. -/
theorem execPadblk_dataInv {s t : State} (hacc : s.phase = .accept) (hs : HoldsAt s .atPad)
    (h : execPadblk s = .next t) : DataInv t := by
  obtain rfl := Host.Outcome.next.inj h
  have hB : s.padBlock s.blk = currentBlock s := (block_message s s.blk).symm
  exact dataInv_of_accept (by simpa using hacc)
    (by simpa [HoldsAt, HashSoFar, hB, scheduledTo_zero] using hs)

/-- LDW: one entry more of the schedule; after entry 15 B is no longer needed. -/
theorem execLdw_dataInv {s t : State} {j : Fin 64} (hj : j.val < 16) (hacc : s.phase = .accept)
    (hs : HoldsAt s (.atLdw j)) (h : execLdw j s = .next t) : DataInv t := by
  rw [execLdw, dif_pos hj] at h
  obtain rfl := Host.Outcome.next.inj h
  obtain ⟨hH, hB, hW⟩ := hs
  have hW' : ScheduledTo (currentBlock s) (s.W.set j.val (loadWord s.B j.val hj)) (j.val + 1) :=
    hB ▸ (hB ▸ hW).load hj
  refine dataInv_of_accept hacc ?_
  by_cases hlast : j.val < 15
  · simpa [nextAfterLdw, hlast, HoldsAt, HashSoFar] using ⟨hH, hB, hW'⟩
  · have h16 : j.val + 1 = 16 := by omega
    simpa [nextAfterLdw, hlast, HoldsAt, HashSoFar] using ⟨hH, h16 ▸ hW'⟩

/-- EXW: one entry more of the schedule; after entry 63 it is complete. -/
theorem execExw_dataInv {s t : State} {j : Fin 64} (hj : 16 ≤ j.val) (hacc : s.phase = .accept)
    (hs : HoldsAt s (.atExw j)) (h : execExw j s = .next t) : DataInv t := by
  rw [execExw, dif_pos hj] at h
  obtain rfl := Host.Outcome.next.inj h
  obtain ⟨hH, hW⟩ := hs
  have hW' := hW.expand hj
  refine dataInv_of_accept hacc ?_
  by_cases hlast : j.val < 63
  · simpa [nextAfterExw, hlast, HoldsAt, HashSoFar] using ⟨hH, hW'⟩
  · have h64 : j.val + 1 = 64 := by omega
    simpa [nextAfterExw, hlast, HoldsAt, HashSoFar] using ⟨hH, (h64 ▸ hW').eq_schedule⟩

/-- LDV: no round is done yet. -/
theorem execLdv_dataInv {s t : State} (hacc : s.phase = .accept) (hs : HoldsAt s .atLdv)
    (h : execLdv s = .next t) : DataInv t := by
  obtain rfl := Host.Outcome.next.inj h
  exact dataInv_of_accept hacc (by simpa [HoldsAt, HashSoFar, roundsTo] using hs)

/-- RND: one round more; after round 63 they are all done. -/
theorem execRnd_dataInv {s t : State} {j : Fin 64} (hacc : s.phase = .accept)
    (hs : HoldsAt s (.atRnd j)) (h : execRnd j s = .next t) : DataInv t := by
  obtain rfl := Host.Outcome.next.inj h
  obtain ⟨hH, hW, hv⟩ := hs
  have hv' : oneRound s.v (K j) s.W[j] = roundsTo (Vars.ofHash s.H) s.W (j.val + 1) := by
    simp only [roundsTo_succ _ _ _ j.isLt, ← hv, Fin.eta, Fin.getElem_fin]
  refine dataInv_of_accept hacc ?_
  by_cases hlast : j.val < 63
  · simpa [nextAfterRnd, hlast, HoldsAt, HashSoFar] using ⟨hH, hW, hv'⟩
  · have h64 : j.val + 1 = 64 := by omega
    rw [h64] at hv'
    simpa [nextAfterRnd, hlast, HoldsAt, HashSoFar, rounds, ← hW] using ⟨hH, hv'⟩

/-- ACC: the hash state is that after one block more. -/
theorem execAcc_dataInv {s t : State} (hacc : s.phase = .accept) (hblk : s.blk < s.blocks)
    (hs : HoldsAt s .atAcc) (h : execAcc s = .next t) : DataInv t := by
  obtain rfl := Host.Outcome.next.inj h
  obtain ⟨hH, hv⟩ := hs
  have hH' : addVars s.H s.v = hashAfter s.message (s.blk + 1) := by
    rw [hv, hashAfter, compress, ← hH, currentBlock]
  unfold State.advanceBlock
  split
  · exact dataInv_of_accept hacc (by simpa [HoldsAt, HashSoFar] using hH')
  · rename_i hlast
    have hN : s.blk + 1 = s.blocks := by
      simp only [State.setHash_blk, State.setHash_blocks] at hlast
      omega
    exact dataInv_of_accept hacc (by simpa [HoldsAt, hN] using hH')

/-- FIN: the digest is that of the final hash state. -/
theorem execFin_dataInv {s t : State} (hs : HoldsAt s .atFin) (h : execFin s = .next t) :
    DataInv t := by
  obtain rfl := Host.Outcome.next.inj h
  obtain ⟨hH, hN⟩ := hs
  have hD : digestBytes s.H = sha256 s.message := by
    rw [hH, sha256, State.message_length, State.blocks]
  exact dataInv_of_holdsAt trivial fun _ => by simpa [HoldsResult, hD, hN] using hH

/-- Every operation performed at its position keeps the data invariant. -/
theorem exec_dataInv {i : Instr} {s t : State} (hc : ControlInv s) (hs : DataInv s)
    (hpos : s.pos = Pos.ofInstr i) (hwf : i.wellFormed = true) (h : exec i s = .next t) :
    DataInv t := by
  have hwait : s.pos ≠ .wait := hpos ▸ ofInstr_ne_wait i
  have hacc : s.phase = .accept := hc.callAccepts hwait
  have hat : HoldsAt s (Pos.ofInstr i) := hpos ▸ holdsAt_of_dataInv hs
  cases i with
  | init => exact execInit_dataInv h
  | padblk => exact execPadblk_dataInv hacc hat h
  | ldv => exact execLdv_dataInv hacc hat h
  | acc => exact execAcc_dataInv hacc (hc.blkInCall hwait (by rw [hpos]; nofun)) hat h
  | fin => exact execFin_dataInv hat h
  | ldw j => exact execLdw_dataInv (of_decide_eq_true hwf) hacc hat h
  | exw j => exact execExw_dataInv (of_decide_eq_true hwf) hacc hat h
  | rnd j => exact execRnd_dataInv hacc hat h

/-! ## The step -/

/-- Taking a host input keeps the data invariant, which does not read the inputs. -/
theorem dataInv_popInput {s : State} (h : DataInv s) : DataInv s.popInput where
  hashSoFar := h.hashSoFar
  blockLoaded := h.blockLoaded
  loadedSoFar := h.loadedSoFar
  expandedSoFar := h.expandedSoFar
  scheduleDone := h.scheduleDone
  roundsSoFar := h.roundsSoFar
  roundsDone := h.roundsDone
  hashDone := h.hashDone
  digestDone := h.digestDone

/-- Settles O49: at WAIT with ACCEPT nothing is asked of the registers. -/
theorem resetMeetsTheDataInvariant : Obligations.ResetMeetsTheDataInvariant :=
  fun _ => dataInv_of_accept rfl trivial

/-- A LAUNCH leads to AT_INIT, where nothing is asked of the registers. -/
theorem launch_dataInv {M : List Byte} {s t : State} (h : launch M s = .next t) : DataInv t := by
  obtain ⟨-, -, rfl⟩ := launch_eq_next_iff.mp h
  exact dataInv_of_accept rfl trivial

/-- Settles O48, by what a step can have done. -/
theorem stepsKeepTheDataInvariant : Obligations.StepsKeepTheDataInvariant := by
  intro s t hc hs h
  obtain ⟨_, rest, -, -, -, rfl⟩ | ⟨_, _, M, -, -, -, -, hl⟩ | ⟨-, -, -, rfl⟩ |
    ⟨i, hpos, hwf, -, -, he⟩ := step_cases h
  · exact resetMeetsTheDataInvariant rest
  · exact launch_dataInv hl
  · exact dataInv_popInput hs
  · exact exec_dataInv (controlInv_popInput hc) (dataInv_popInput hs) hpos hwf he

end Sys2Proof.Proofs.Data

/-! Settles the statements about the guarded machine (10_state.md R32; 60_exceptions.md R154): where
everything a position needs is written, the guarded step is the step with a longer list of written
elements, and everything the next position needs is on that list. -/

namespace Sys2Proof.Proofs.Guard

open Sys2Proof.Machine Sys2Proof.Safety Sys2Proof.Proofs.Control Sys2Proof.Proofs.Elements

/-! ## Whose turn it is -/

/-- The engine performs an operation at that operation's position only. -/
theorem turn_perform {s : State} {i : Instr} (h : s.turn = .perform i) :
    s.pos = Pos.ofInstr i ∧ i.wellFormed = true := by
  unfold State.turn at h
  split at h
  · exact State.engineTurn_perform_iff.mp h
  · split at h
    · cases h
    · split at h
      · cases h
      · split at h
        · cases h
        · exact State.engineTurn_perform_iff.mp h

theorem engineTurn_ne_reserved {s : State} (h : s.pos.legal = true) : s.engineTurn ≠ .reserved := by
  rw [State.engineTurn_eq]
  cases hp : s.pos with
  | atLdw j => rw [hp] at h; simp [of_decide_eq_true h]
  | atExw j => rw [hp] at h; simp [of_decide_eq_true h]
  | _ => nofun

theorem turn_ne_reserved {s : State} (h : s.pos.legal = true) : s.turn ≠ .reserved := by
  unfold State.turn
  split
  · exact engineTurn_ne_reserved h
  · split
    · nofun
    · split
      · nofun
      · split
        · nofun
        · exact engineTurn_ne_reserved h

/-- An operation with its index in range does not fault. -/
theorem exec_ne_fault {i : Instr} (hwf : i.wellFormed = true) (s : State) (r : Fault) :
    exec i s ≠ .fault r := by
  cases i with
  | ldw j => rw [exec_ldw j s (of_decide_eq_true hwf)]; nofun
  | exw j => rw [exec_exw j s (of_decide_eq_true hwf)]; nofun
  | _ => nofun

theorem launch_ne_fault (M : List Byte) (s : State) (r : Fault) : launch M s ≠ .fault r := by
  unfold launch
  split
  · nofun
  · split <;> nofun

/-- At a position of 10_state.md R27 the step does not fault. -/
theorem step_ne_fault {s : State} (h : s.pos.legal = true) (r : Fault) : step s ≠ .fault r := by
  unfold step
  cases ht : s.turn with
  | reset => nofun
  | launch M => exact launch_ne_fault M _ r
  | idle => nofun
  | perform i => exact exec_ne_fault (turn_perform ht).2 _ r
  | stuck => nofun
  | reserved => exact absurd ht (turn_ne_reserved h)

/-! ## What a position needs -/

@[simp] theorem mem_take_allW {n : Nat} {x : Element} :
    x ∈ allW.take n ↔ ∃ j : Fin 64, j.val < n ∧ x = .W j := by
  simp only [allW, List.mem_take_iff_getElem, List.getElem_map, List.getElem_finRange,
    List.length_map, List.length_finRange, lt_min_iff]
  constructor
  · rintro ⟨i, hi, rfl⟩
    exact ⟨⟨i, hi.2⟩, hi.1, rfl⟩
  · rintro ⟨j, hj, rfl⟩
    exact ⟨j.val, ⟨hj, j.isLt⟩, rfl⟩

theorem mem_take_succ_allW {j : Fin 64} {x : Element} (h : x ∈ allW.take (j.val + 1)) :
    x = .W j ∨ x ∈ allW.take j.val := by
  obtain ⟨k, hk, rfl⟩ := mem_take_allW.mp h
  by_cases hkj : k = j
  · exact .inl (by rw [hkj])
  · exact .inr (mem_take_allW.mpr ⟨k, by omega, rfl⟩)

/-- What an operation reads is among what its position needs. -/
theorem readsOf_needed {i : Instr} (hwf : i.wellFormed = true) :
    ∀ x ∈ readsOf i, x ∈ neededAt (Pos.ofInstr i) := by
  cases i with
  | init => nofun
  | padblk => nofun
  | ldv => simp [readsOf, neededAt, Pos.ofInstr]
  | acc => simp [readsOf, neededAt, Pos.ofInstr]
  | fin => simp [readsOf, neededAt, Pos.ofInstr]
  | ldw j => simp [readsOf, neededAt, Pos.ofInstr]
  | exw j =>
    have hj : 16 ≤ j.val := of_decide_eq_true hwf
    have earlier (k : Nat) (hk : 0 < k) (hk16 : k ≤ 16) :
        (Fin.ofNat 64 (j.val - k)).val < j.val := by
      rw [Fin.val_ofNat]; omega
    intro x hx
    simp only [readsOf, List.mem_cons, List.not_mem_nil, or_false] at hx
    refine List.mem_append_right _ (mem_take_allW.mpr ?_)
    obtain rfl | rfl | rfl | rfl := hx
    · exact ⟨_, earlier 16 (by omega) (by omega), rfl⟩
    · exact ⟨_, earlier 15 (by omega) (by omega), rfl⟩
    · exact ⟨_, earlier 7 (by omega) (by omega), rfl⟩
    · exact ⟨_, earlier 2 (by omega) (by omega), rfl⟩
  | rnd j => simp [readsOf, neededAt, Pos.ofInstr]

/-! The positions after an indexed operation need what it wrote, whether the index is the last one
or not. -/

theorem needed_nextAfterLdw {j : Fin 64} (hj : j.val < 16) {x : Element}
    (h : x ∈ neededAt (nextAfterLdw j)) : x ∈ allH ∨ x ∈ allB ∨ x ∈ allW.take (j.val + 1) := by
  by_cases hlast : j.val < 15
  · simpa only [neededAt, nextAfterLdw, hlast, dite_true, List.mem_append, or_assoc] using h
  · have h15 : j.val = 15 := by omega
    simp only [neededAt, nextAfterLdw, h15, lt_irrefl, dite_false, List.mem_append] at h
    exact h.imp_right fun hW => .inr (h15 ▸ hW)

theorem needed_nextAfterExw {j : Fin 64} {x : Element} (h : x ∈ neededAt (nextAfterExw j)) :
    x ∈ allH ∨ x ∈ allW.take (j.val + 1) := by
  by_cases hlast : j.val < 63
  · simpa only [neededAt, nextAfterExw, hlast, dite_true, List.mem_append] using h
  · have h63 : j.val = 63 := by omega
    simpa [neededAt, nextAfterExw, h63] using h

theorem needed_nextAfterRnd {j : Fin 64} {x : Element} (h : x ∈ neededAt (nextAfterRnd j)) :
    x ∈ allH ∨ x ∈ allW ∨ x ∈ allV := by
  by_cases hlast : j.val < 63
  · simpa only [neededAt, nextAfterRnd, hlast, dite_true, List.mem_append, or_assoc] using h
  · simp only [neededAt, nextAfterRnd, hlast, dite_false, List.mem_append] at h
    exact h.imp_right .inr

/-- What the next position needs is what the operation wrote or its own position needed. -/
theorem needed_after {i : Instr} {s t : State} (h : exec i s = .next t) :
    ∀ x ∈ neededAt t.pos, x ∈ writesOf i ++ neededAt (Pos.ofInstr i) := by
  intro x hx
  rw [List.mem_append]
  obtain ⟨rfl, rfl⟩ | ⟨rfl, rfl⟩ | ⟨rfl, rfl⟩ | ⟨rfl, rfl⟩ | ⟨rfl, rfl⟩ | ⟨j, hj, rfl, rfl⟩ |
    ⟨j, hj, rfl, rfl⟩ | ⟨j, rfl, rfl⟩ := exec_cases h
  · -- INIT: H
    exact .inl hx
  · -- PADBLK: H, B and no entry of W yet
    obtain hHB | hW := List.mem_append.mp hx
    · exact (List.mem_append.mp hHB).symm
    · cases hW
  · -- LDV: H, W and the working variables
    exact (List.mem_append.mp hx).symm
  · -- ACC: H, at either next position
    obtain ⟨-, e⟩ | ⟨-, e⟩ := (s.setHash (addVars s.H s.v)).advanceBlock_cases
    · rw [e] at hx
      exact .inl hx
    · rw [e] at hx
      exact .inl hx
  · -- FIN: H
    exact .inr hx
  · -- LDW: one entry of W more
    have hW := @mem_take_succ_allW j x
    have hx := needed_nextAfterLdw hj hx
    simp only [writesOf, neededAt, Pos.ofInstr, List.mem_append, List.mem_singleton]
    tauto
  · -- EXW: one entry of W more
    have hW := @mem_take_succ_allW j x
    have hx := needed_nextAfterExw hx
    simp only [writesOf, neededAt, Pos.ofInstr, List.mem_append, List.mem_singleton]
    tauto
  · -- RND: H, W and the working variables
    have hx := needed_nextAfterRnd hx
    simp only [writesOf, neededAt, Pos.ofInstr, List.mem_append]
    tauto

/-! ## The guarded step -/

/-- The written elements after a move. -/
def writtenAfter (written : List Element) : Turn → List Element
  | .perform i => writesOf i ++ written
  | .reset => allH
  | .launch _ => written
  | .idle => written
  | .stuck => written
  | .reserved => written

/-- Where everything the position needs is written, the guarded step is the step. -/
theorem guardedStep_eq {g : Guarded} (h : WrittenInv g) :
    guardedStep g = Guarded.of (writtenAfter g.written g.state.turn) (step g.state) := by
  unfold guardedStep
  cases ht : g.state.turn with
  | perform i =>
    obtain ⟨hpos, hwf⟩ := turn_perform ht
    exact Guarded.reading_of_written
      (fun x hx => h.needed x (hpos ▸ readsOf_needed hwf x hx)) _
  | _ => rfl

theorem guardedOf_eq_next_iff {written : List Element} {o : Host.Outcome State Fault Refusal}
    {g : Guarded} : Guarded.of written o = .next g ↔ ∃ t, o = .next t ∧ g = ⟨t, written⟩ := by
  cases o <;> simp [Guarded.of, eq_comm]

theorem guardedOf_eq_fault_iff {written : List Element} {o : Host.Outcome State Fault Refusal}
    {r : Fault} : Guarded.of written o = .fault r ↔ o = .fault r := by
  cases o <;> simp [Guarded.of]

/-- Settles O51: H, which is written, is all the engine needs at WAIT. -/
theorem resetMeetsTheWrittenInvariant : Obligations.ResetMeetsTheWrittenInvariant := fun _ =>
  { legalPos := rfl
    needed := fun _ hx => hx
    digest := nofun }

/-- FIN is the one operation that enters DONE (43_hash_accumulator.md R123). -/
theorem eq_fin_of_exec_done {i : Instr} {s t : State} (hacc : s.phase = .accept)
    (h : exec i s = .next t) (hdone : t.phase = .done) : i = .fin := by
  by_contra hfin
  by_cases hinit : i = .init
  · subst hinit
    rw [exec_init] at h
    obtain rfl := Host.Outcome.next.inj h
    cases hdone
  · obtain ⟨hphase, -⟩ := exec_control_frame h
    rw [hphase hinit hfin, hacc] at hdone
    cases hdone

/-- An operation leaves everything the next position needs written, and FIN the digest. -/
theorem exec_writtenInv {i : Instr} {s t : State} {written : List Element}
    (hneed : ∀ x ∈ neededAt (Pos.ofInstr i), x ∈ written) (hacc : s.phase = .accept)
    (hlegal : t.pos.legal = true) (h : exec i s = .next t) :
    WrittenInv ⟨t, writesOf i ++ written⟩ where
  legalPos := hlegal
  needed x hx := by
    obtain hw | hn := List.mem_append.mp (needed_after h x hx)
    · exact List.mem_append_left _ hw
    · exact List.mem_append_right _ (hneed x hn)
  digest hdone x hx := by
    obtain rfl := eq_fin_of_exec_done hacc h hdone
    exact List.mem_append_left _ hx

/-- Every step keeps the written invariant. -/
theorem step_writtenInv {g : Guarded} {t : State} (hw : WrittenInv g) (hc : ControlInv g.state)
    (h : step g.state = .next t) : WrittenInv ⟨t, writtenAfter g.written g.state.turn⟩ := by
  have hct : ControlInv t := stepsKeepTheControlInvariant _ _ hc h
  obtain ⟨_, rest, -, -, ht, rfl⟩ | ⟨_, _, M, -, -, -, ht, hl⟩ | ⟨-, -, ht, rfl⟩ |
    ⟨i, hpos, -, -, ht, he⟩ := step_cases h
  · rw [ht]
    exact resetMeetsTheWrittenInvariant rest
  · rw [ht]
    obtain ⟨hpos, -, rfl⟩ := launch_eq_next_iff.mp hl
    have hpos : g.state.pos = .wait := hpos
    exact
      { legalPos := rfl
        needed := fun x hx => hw.needed x (by rw [hpos]; exact hx)
        digest := nofun }
  · rw [ht]
    exact { legalPos := hw.legalPos, needed := hw.needed, digest := hw.digest }
  · rw [ht]
    have hacc : g.state.popInput.phase = .accept :=
      hc.callAccepts (hpos ▸ ofInstr_ne_wait i)
    exact exec_writtenInv (hpos ▸ hw.needed) hacc hct.legalPos he

/-- Settles O50: the guarded step is the step, which cannot fault and keeps the invariants. -/
theorem guardedStepsNeverReadUnwrittenState : Obligations.GuardedStepsNeverReadUnwrittenState := by
  intro g hw hc
  rw [guardedStep_eq hw]
  refine ⟨fun r hr => step_ne_fault hw.legalPos r (guardedOf_eq_fault_iff.mp hr), ?_, ?_⟩
  · intro g' hg'
    obtain ⟨t, ht, rfl⟩ := guardedOf_eq_next_iff.mp hg'
    exact ⟨step_writtenInv hw hc ht, stepsKeepTheControlInvariant _ _ hc ht⟩
  · intro t ht
    exact ⟨_, guardedOf_eq_next_iff.mpr ⟨t, ht, rfl⟩⟩

/-! ## The guarded read of the digest -/

/-- In DONE the read rests on all bytes of DG. -/
theorem guardedReadDigest_done {g : Guarded} (h : g.state.phase = .done) :
    guardedReadDigest g = g.reading allDG (.next g.state.DG) := by
  simp [guardedReadDigest, State.readDigest, State.done, h]

/-- Before DONE the read is refused. -/
theorem guardedReadDigest_not_done {g : Guarded} (h : g.state.phase ≠ .done) :
    guardedReadDigest g = .refused .digestNotReady := by
  simp [guardedReadDigest, State.readDigest, State.done, h]

/-- In a state that meets the written invariant the guarded read does what the read does. -/
theorem guardedReadDigest_of_writtenInv {g : Guarded} (h : WrittenInv g) :
    (∀ r, guardedReadDigest g ≠ .fault r) ∧
      ∀ digest, guardedReadDigest g = .next digest ↔ g.state.readDigest = .ok digest := by
  by_cases hd : g.state.phase = .done
  · rw [guardedReadDigest_done hd, Guarded.reading_of_written (h.digest hd)]
    simp [State.readDigest, State.done, hd]
  · rw [guardedReadDigest_not_done hd]
    simp [State.readDigest, State.done, hd]

/-- Settles O59; after a guarded step, by the written invariant that it keeps. -/
theorem guardedDigestReadNeverMeetsUnwrittenState :
    Obligations.GuardedDigestReadNeverMeetsUnwrittenState := by
  refine ⟨fun g hd hx => ?_, fun g => guardedReadDigest_not_done, fun g g' hw hc hg' => ?_⟩
  · rw [guardedReadDigest_done hd, Guarded.reading_of_unwritten hx]
  · obtain rfl | hstep := hg'
    · exact guardedReadDigest_of_writtenInv hw
    · obtain ⟨-, hkeeps, -⟩ := guardedStepsNeverReadUnwrittenState g hw hc
      exact guardedReadDigest_of_writtenInv (hkeeps g' hstep).1

end Sys2Proof.Proofs.Guard

/-! Settles the statement about the message addresses a call reads (20_memory.md R45): at every
position the steps left in the call and the addresses not yet read are known, and each operation
takes one step and the addresses it reads off them. -/

namespace Sys2Proof.Proofs.MessageReads

open Sys2Proof.Machine Sys2Proof.Safety Sys2Proof.Proofs.Control

/-! ## What is left of a call -/

/-- The positions at which B holds the current block: from its delivery to its accumulation. -/
def blockDelivered : Pos → Bool
  | .wait | .atInit | .atPad | .atFin => false
  | .atLdw _ | .atExw _ | .atLdv | .atRnd _ | .atAcc => true

/-- The operations from a position within a block to the ACC that ends it (30_encoding.md R71);
0 elsewhere. -/
def stepsToAcc : Pos → Nat
  | .wait | .atInit | .atFin | .atAcc => 0
  | .atPad => 130
  | .atLdw j | .atExw j => 129 - j.val
  | .atLdv => 65
  | .atRnd j => 64 - j.val

/-- The operations of the call that are not yet performed (30_encoding.md R70). -/
def stepsLeft (s : State) : Nat :=
  match s.pos with
  | .wait => 0
  | .atInit => 2 + 131 * s.blocks
  | .atFin => 1
  | p => stepsToAcc p + (2 + 131 * (s.blocks - (s.blk + 1)))

/-- The first address of the message that the call has not yet read. -/
def nextAddress (s : State) : Nat :=
  match s.pos with
  | .wait | .atFin => s.msgLen
  | .atInit => 0
  | .atPad => 64 * s.blk
  | _ => 64 * s.blk + 64

/-- The addresses of the message that the call has not yet read, in increasing order. -/
def unreadAddresses (s : State) : List Nat := List.Ico (nextAddress s) s.msgLen

/-- The engine stands at one of its positions and the host does nothing any more. -/
structure Undisturbed (s : State) : Prop where
  legalPos : s.pos.legal = true
  silent : s.hostInputs = []

theorem stepsLeft_of_delivered {s : State} (h : blockDelivered s.pos = true) :
    stepsLeft s = stepsToAcc s.pos + (2 + 131 * (s.blocks - (s.blk + 1))) := by
  unfold stepsLeft
  cases hp : s.pos <;> simp_all [blockDelivered]

theorem nextAddress_of_delivered {s : State} (h : blockDelivered s.pos = true) :
    nextAddress s = 64 * s.blk + 64 := by
  unfold nextAddress
  cases hp : s.pos <;> simp_all [blockDelivered]

/-- A call has steps left exactly while it is running. -/
theorem stepsLeft_eq_zero_iff {s : State} : stepsLeft s = 0 ↔ s.pos = .wait := by
  unfold stepsLeft
  cases s.pos <;> simp

/-- All of a message lies before the end of its last block (40_padding_controller.md R83). -/
theorem msgLen_le_blocks (s : State) : s.msgLen ≤ 64 * s.blocks := by
  unfold State.blocks blockCount
  omega

/-! ## The indexed operations within a block -/

theorem nextAfterLdw_delivered (j : Fin 64) : blockDelivered (nextAfterLdw j) = true := by
  unfold nextAfterLdw
  split <;> rfl

theorem nextAfterExw_delivered (j : Fin 64) : blockDelivered (nextAfterExw j) = true := by
  unfold nextAfterExw
  split <;> rfl

theorem nextAfterRnd_delivered (j : Fin 64) : blockDelivered (nextAfterRnd j) = true := by
  unfold nextAfterRnd
  split <;> rfl

theorem stepsToAcc_nextAfterLdw {j : Fin 64} (hj : j.val < 16) :
    stepsToAcc (.atLdw j) = stepsToAcc (nextAfterLdw j) + 1 := by
  unfold nextAfterLdw
  split
  · simp only [stepsToAcc]; omega
  · have h15 : j.val = 15 := by omega
    simp [stepsToAcc, h15]

theorem stepsToAcc_nextAfterExw (j : Fin 64) :
    stepsToAcc (.atExw j) = stepsToAcc (nextAfterExw j) + 1 := by
  unfold nextAfterExw
  split
  · simp only [stepsToAcc]; omega
  · have h63 : j.val = 63 := by omega
    simp [stepsToAcc, h63]

theorem stepsToAcc_nextAfterRnd (j : Fin 64) :
    stepsToAcc (.atRnd j) = stepsToAcc (nextAfterRnd j) + 1 := by
  unfold nextAfterRnd
  split
  · simp only [stepsToAcc]; omega
  · have h63 : j.val = 63 := by omega
    simp [stepsToAcc, h63]

/-! ## Each operation takes its part off what is left -/

/-- PADBLK reads the addresses of its block below L, in increasing order (20_memory.md R45). -/
theorem messageReadsOf_padblk (s : State) :
    messageReadsOf .padblk s = List.Ico (64 * s.blk) (min (64 * s.blk + 64) s.msgLen) := by
  have hmap : (List.range 64).map (64 * s.blk + ·) = List.Ico (64 * s.blk) (64 * s.blk + 64) := by
    rw [← List.Ico.zero_bot, List.Ico.map_add, Nat.zero_add, Nat.add_comm]
  rw [← List.Ico.filter_lt, ← hmap]
  rfl

/-- The addresses of one block, then those after it, are all of those from the block on. -/
theorem Ico_block_append (a L : Nat) :
    List.Ico a (min (a + 64) L) ++ List.Ico (a + 64) L = List.Ico a L := by
  by_cases h : a + 64 ≤ L
  · rw [min_eq_left h, List.Ico.append_consecutive (Nat.le_add_right a 64) h]
  · have h : L ≤ a + 64 := by omega
    rw [min_eq_right h, List.Ico.eq_nil_of_le h, List.append_nil]

/-- The operation `i` leads from `s` to `t` and takes one step and the addresses it reads off what is
left of the call. -/
structure Progress (i : Instr) (s t : State) : Prop where
  undisturbed : Undisturbed t
  steps : stepsLeft s = stepsLeft t + 1
  reads : messageReadsOf i s ++ unreadAddresses t = unreadAddresses s

/-- What is left to show of an operation that moves within a block already delivered. -/
theorem progress_of_delivered {i : Instr} {s t : State} (hs : blockDelivered s.pos = true)
    (ht : blockDelivered t.pos = true) (hi : i ≠ .padblk) (hblk : t.blk = s.blk)
    (hlen : t.msgLen = s.msgLen) (hund : Undisturbed t)
    (hsteps : stepsToAcc s.pos = stepsToAcc t.pos + 1) : Progress i s t where
  undisturbed := hund
  steps := by
    have hN : t.blocks = s.blocks := by simp only [State.blocks, hlen]
    rw [stepsLeft_of_delivered hs, stepsLeft_of_delivered ht, hblk, hN, hsteps]
    omega
  reads := by
    have hread : messageReadsOf i s = [] := by cases i <;> simp_all [messageReadsOf]
    rw [hread, List.nil_append, unreadAddresses, unreadAddresses, nextAddress_of_delivered hs,
      nextAddress_of_delivered ht, hblk, hlen]

/-- What is left to show of ACC, at either next position: behind the last block lies no address. -/
theorem progress_acc {s : State} (hs : Undisturbed s) (hpos : s.pos = .atAcc) :
    Progress .acc s (s.setHash (addVars s.H s.v)).advanceBlock := by
  obtain ⟨hnext, e⟩ | ⟨hlast, e⟩ := (s.setHash (addVars s.H s.v)).advanceBlock_cases <;> rw [e]
  · simp only [State.setHash_blk, State.setHash_blocks] at hnext
    unfold State.blocks at hnext
    exact
      { undisturbed := ⟨rfl, hs.silent⟩
        steps := by simp [stepsLeft, stepsToAcc, hpos, State.blocks]; omega
        reads := by
          simp [messageReadsOf, unreadAddresses, nextAddress, hpos, Nat.mul_add] }
  · simp only [State.setHash_blk, State.setHash_blocks] at hlast
    have hL := msgLen_le_blocks s
    exact
      { undisturbed := ⟨rfl, hs.silent⟩
        steps := by simp [stepsLeft, stepsToAcc, hpos]; omega
        reads := by
          have hnone : s.msgLen ≤ 64 * s.blk + 64 := by omega
          simp [messageReadsOf, unreadAddresses, nextAddress, hpos, hnone] }

/-- Every operation performed at its position takes its part off what is left of the call. -/
theorem exec_progress {i : Instr} {s t : State} (hs : Undisturbed s) (hpos : s.pos = Pos.ofInstr i)
    (h : exec i s = .next t) : Progress i s t := by
  have hin := hs.silent
  obtain ⟨rfl, rfl⟩ | ⟨rfl, rfl⟩ | ⟨rfl, rfl⟩ | ⟨rfl, rfl⟩ | ⟨rfl, rfl⟩ | ⟨j, hj, rfl, rfl⟩ |
    ⟨j, hj, rfl, rfl⟩ | ⟨j, rfl, rfl⟩ := exec_cases h <;> simp only [Pos.ofInstr] at hpos
  · -- INIT: a call has at least one block
    exact
      { undisturbed := ⟨rfl, hin⟩
        steps := by simp [stepsLeft, stepsToAcc, hpos, State.blocks, blockCount]; omega
        reads := by simp [messageReadsOf, unreadAddresses, nextAddress, hpos] }
  · -- PADBLK, the one operation that reads the message
    exact
      { undisturbed := ⟨rfl, hin⟩
        steps := by simp [stepsLeft, stepsToAcc, hpos, State.blocks]; omega
        reads := by
          simpa [messageReadsOf_padblk, unreadAddresses, nextAddress, hpos] using
            Ico_block_append (64 * s.blk) s.msgLen }
  · -- LDV
    exact progress_of_delivered (hpos ▸ rfl) rfl nofun rfl rfl ⟨rfl, hin⟩ (hpos ▸ rfl)
  · -- ACC
    exact progress_acc hs hpos
  · -- FIN
    exact
      { undisturbed := ⟨rfl, hin⟩
        steps := by simp [stepsLeft, hpos]
        reads := by simp [messageReadsOf, unreadAddresses, nextAddress, hpos] }
  · -- LDW
    exact progress_of_delivered (hpos ▸ rfl) (nextAfterLdw_delivered j) nofun rfl rfl
      ⟨nextAfterLdw_legal j, hin⟩ (hpos ▸ stepsToAcc_nextAfterLdw hj)
  · -- EXW
    exact progress_of_delivered (hpos ▸ rfl) (nextAfterExw_delivered j) nofun rfl rfl
      ⟨nextAfterExw_legal hj, hin⟩ (hpos ▸ stepsToAcc_nextAfterExw j)
  · -- RND
    exact progress_of_delivered (hpos ▸ rfl) (nextAfterRnd_delivered j) nofun rfl rfl
      ⟨nextAfterRnd_legal j, hin⟩ (hpos ▸ stepsToAcc_nextAfterRnd j)

/-! ## The call -/

/-- At every position but WAIT an operation is performed (30_encoding.md R74). -/
theorem exists_ofInstr_of_legal {p : Pos} (hlegal : p.legal = true) (hwait : p ≠ .wait) :
    ∃ i, p = Pos.ofInstr i ∧ i.wellFormed = true := by
  cases p with
  | wait => exact absurd rfl hwait
  | atInit => exact ⟨.init, rfl, rfl⟩
  | atPad => exact ⟨.padblk, rfl, rfl⟩
  | atLdw j => exact ⟨.ldw j, rfl, hlegal⟩
  | atExw j => exact ⟨.exw j, rfl, hlegal⟩
  | atLdv => exact ⟨.ldv, rfl, rfl⟩
  | atRnd j => exact ⟨.rnd j, rfl, rfl⟩
  | atAcc => exact ⟨.acc, rfl, rfl⟩
  | atFin => exact ⟨.fin, rfl, rfl⟩

/-- An operation with its index in range always completes (60_exceptions.md R140). -/
theorem exists_exec_eq_next {i : Instr} (hwf : i.wellFormed = true) (s : State) :
    ∃ t, exec i s = .next t := by
  cases i with
  | init => exact ⟨_, exec_init s⟩
  | padblk => exact ⟨_, exec_padblk s⟩
  | ldv => exact ⟨_, exec_ldv s⟩
  | acc => exact ⟨_, exec_acc s⟩
  | fin => exact ⟨_, exec_fin s⟩
  | ldw j => exact ⟨_, exec_ldw j s (of_decide_eq_true hwf)⟩
  | exw j => exact ⟨_, exec_exw j s (of_decide_eq_true hwf)⟩
  | rnd j => exact ⟨_, exec_rnd j s⟩

/-- An engine left alone in a call performs the operation of its position. -/
theorem step_progress {s : State} (hs : Undisturbed s) (hwait : s.pos ≠ .wait) :
    ∃ i t, s.turn = .perform i ∧ step s = .next t ∧ Progress i s t := by
  obtain ⟨i, hpos, hwf⟩ := exists_ofInstr_of_legal hs.legalPos hwait
  obtain ⟨t, ht⟩ := exists_exec_eq_next hwf s
  have hsilent : HostSilent s := hostSilent_of_nil hs.silent
  have hturn : s.turn = .perform i :=
    (turn_eq_engineTurn hsilent hwait).trans (State.engineTurn_perform_iff.mpr ⟨hpos, hwf⟩)
  have hstep : step s = .next t := by
    rw [step_at_ofInstr hsilent hpos hwf, popInput_of_nil hs.silent, ht]
  exact ⟨i, t, hturn, hstep, exec_progress hs hpos ht⟩

/-- The addresses read in a run that begins with an operation. -/
theorem messageReads_succ {n : Nat} {s t : State} {i : Instr} (hturn : s.turn = .perform i)
    (hstep : step s = .next t) :
    messageReads (n + 1) s = messageReadsOf i s ++ messageReads n t := by
  simp only [messageReads, hturn, hstep]

/-- From any point of a call to its end the engine reads just the addresses not yet read. -/
theorem messageReads_stepsLeft {s : State} (hs : Undisturbed s) :
    messageReads (stepsLeft s) s = unreadAddresses s := by
  induction hn : stepsLeft s generalizing s with
  | zero =>
    have hwait : s.pos = .wait := stepsLeft_eq_zero_iff.mp hn
    simp [messageReads, unreadAddresses, nextAddress, hwait]
  | succ n ih =>
    have hwait : s.pos ≠ .wait := fun h => by simp [stepsLeft_eq_zero_iff.mpr h] at hn
    obtain ⟨i, t, hturn, hstep, ht, hsteps, hreads⟩ := step_progress hs hwait
    rw [messageReads_succ hturn hstep, ih ht (by omega), hreads]

/-- A launched call has all its steps and all addresses of its message left. -/
theorem launch_allLeft {M : List Byte} {s t : State} (hin : s.hostInputs = [])
    (h : launch M s = .next t) :
    Undisturbed t ∧ stepsLeft t = 2 + 131 * blockCount M.length ∧
      unreadAddresses t = List.range M.length := by
  obtain ⟨-, -, rfl⟩ := launch_eq_next_iff.mp h
  exact ⟨⟨rfl, hin⟩, rfl, List.Ico.zero_bot M.length⟩

/-- Settles O56: what the whole call reads is what the launch leaves to read. -/
theorem messageIsReadOnceInOrder : Obligations.MessageIsReadOnceInOrder := by
  intro M s s0 hin hl
  obtain ⟨hund, hsteps, hunread⟩ := launch_allLeft hin hl
  rw [← hsteps, messageReads_stepsLeft hund, hunread]

end Sys2Proof.Proofs.MessageReads

/-! Settles the statements about the message space (20_memory.md R41, R45, R48) by the laws of what a
LAUNCH binds, of what a padding byte depends on and of the frame of an operation. -/

namespace Sys2Proof.Proofs.MessageSpace

open Sys2Proof.Machine Sys2Proof.Proofs.Elements

/-- Settles O36: every read is one of the launched bytes. -/
theorem launchedMessageReadsBack : Obligations.LaunchedMessageReadsBack := by
  intro M s t h
  obtain ⟨-, -, ht⟩ := launch_eq_next_iff.mp h
  have hmsg : t.msg = Memory.ofBytes M := by rw [ht]
  have hlen : t.msgLen = M.length := by rw [ht]
  have hmessage : t.message = M := State.message_of_launched hmsg hlen
  have hread (p : Nat) : t.memRead p = M[p]? := by rw [State.memRead_eq_message, hmessage]
  rw [hmsg, hlen]
  exact ⟨hread, rfl, hmessage, Memory.wf_ofBytes M, Memory.within_ofBytes M⟩

/-- A block depends on the length and on the addresses of its own below L (20_memory.md R45). -/
theorem padBlock_congr_addresses {s t : State} {i : Nat} (hL : s.msgLen = t.msgLen)
    (h : ∀ p, 64 * i ≤ p → p < min (64 * i + 64) s.msgLen → s.memRead p = t.memRead p) :
    s.padBlock i = t.padBlock i := by
  unfold State.padBlock
  congr 1
  funext q
  refine State.padByte_congr ?_ hL
  by_cases hp : 64 * i + q.val < s.msgLen
  · exact h _ (Nat.le_add_right _ _) (lt_min (Nat.add_lt_add_left q.isLt _) hp)
  · rw [State.memRead, State.memRead, ← hL, if_neg hp, if_neg hp]

/-- Settles O37. -/
theorem padblkReadsOnlyItsOwnBytes : Obligations.PadblkReadsOnlyItsOwnBytes := by
  intro s t hL hblk h
  refine ⟨s.padBlock s.blk, exec_padblk s, ?_⟩
  rw [exec_padblk, padBlock_congr_addresses hL h, hblk]

/-- Settles O38: an operation keeps the two fields that a read depends on. -/
theorem operationsWriteNoMemory : Obligations.OperationsWriteNoMemory := by
  intro i s t h p
  obtain ⟨-, -, hmsg, hlen, -⟩ := exec_control_frame h
  exact State.memRead_congr hmsg hlen p

end Sys2Proof.Proofs.MessageSpace

/-! Settles the statement about the digest as a vector (20_memory.md R53): the bytes of DG are the
digits in base 256, first byte on top, of the number that `digestVector` folds them into. -/

namespace Sys2Proof.Proofs.DigestVector

open Sys2Proof.Machine

/-- The number of a byte sequence, first byte most significant, as `digestVector` folds it. -/
def bigEndian (bs : List Byte) : Nat := bs.foldl (fun acc b => acc * 256 + b.toNat) 0

theorem bigEndian_concat (bs : List Byte) (b : Byte) :
    bigEndian (bs ++ [b]) = bigEndian bs * 256 + b.toNat := by
  simp [bigEndian]

/-- Digit `k` of the number of a byte sequence is byte `k` from its end. -/
theorem bigEndian_digit (bs : List Byte) :
    ∀ (k : Nat) (hk : k < bs.reverse.length),
      bigEndian bs / 256 ^ k % 256 = bs.reverse[k].toNat := by
  induction bs using List.reverseRecOn with
  | nil => exact fun k hk => absurd hk (Nat.not_lt_zero k)
  | append_singleton bs b ih =>
    intro k hk
    have hb : b.toNat < 256 := b.isLt
    cases k with
    | zero => simpa [bigEndian_concat] using hb
    | succ k =>
      have hshift : bigEndian (bs ++ [b]) / 256 = bigEndian bs := by
        rw [bigEndian_concat]
        omega
      rw [pow_succ', ← Nat.div_div_eq_div_mul, hshift]
      simp only [List.reverse_concat, List.length_cons, Nat.add_lt_add_iff_right] at hk ⊢
      exact ih k hk

/-- Eight bits within a vector are a digit of its number, however far the number goes on. -/
theorem extractLsb'_byte_toNat (N k : Nat) (hk : 8 * k + 8 ≤ 256) :
    ((BitVec.ofNat 256 N).extractLsb' (8 * k) 8).toNat = N / 256 ^ k % 256 := by
  have hdvd : 256 ∣ 2 ^ (256 - 8 * k) := pow_dvd_pow 2 (show 8 ≤ 256 - 8 * k by omega)
  have hlow : 2 ^ (8 * k) = 256 ^ k := pow_mul 2 8 k
  have hsplit : 2 ^ 256 = 256 ^ k * 2 ^ (256 - 8 * k) := by
    rw [← hlow, ← pow_add, Nat.add_sub_cancel' (by omega)]
  rw [BitVec.extractLsb'_toNat, BitVec.toNat_ofNat, Nat.shiftRight_eq_div_pow, hsplit, hlow,
    Nat.mod_mul_right_div_self]
  exact Nat.mod_mod_of_dvd _ hdvd

theorem digestVector_eq (DG : Vector Byte 32) :
    digestVector DG = BitVec.ofNat 256 (bigEndian DG.toList) := rfl

/-- Settles O26: the bits of byte `q` are digit `31 - q` of the number, which is that byte. -/
theorem digestVectorPutsFirstByteOnTop : Obligations.DigestVectorPutsFirstByteOnTop := by
  intro DG q
  have hlow : 248 - 8 * q.val = 8 * (31 - q.val) := by omega
  have hlen : 31 - q.val < DG.toList.reverse.length := by
    rw [List.length_reverse, Vector.length_toList]
    omega
  have hbyte : DG.toList.reverse[31 - q.val] = DG[q] := by
    have hq : 32 - 1 - (31 - q.val) = q.val := by omega
    simp [hq]
  apply BitVec.eq_of_toNat_eq
  rw [digestVector_eq, hlow, extractLsb'_byte_toNat _ _ (by omega), bigEndian_digit _ _ hlen, hbyte]

end Sys2Proof.Proofs.DigestVector

/-! Settles the statement about several engines (20_memory.md R51; 60_exceptions.md R150): a step of
engine `k` answers the system with that one state replaced. -/

namespace Sys2Proof.Proofs.Engines

open Sys2Proof.Machine

theorem stepAt_eq_next_iff {n : Nat} {S T : System n} {k : Fin n} :
    S.stepAt k = .next T ↔ ∃ t, step S[k] = .next t ∧ T = S.set k.val t := by
  unfold System.stepAt
  cases step S[k] <;> simp [eq_comm]

/-- Replacing the state of one engine leaves the others. -/
theorem set_getElem_of_ne {n : Nat} (S : System n) {k l : Fin n} (h : k ≠ l) (t : State) :
    (S.set k.val t)[l] = S[l] :=
  Vector.getElem_set_ne k.isLt l.isLt (Fin.val_ne_of_ne h)

/-- Settles O58: each of the two steps reads and writes its own engine's state only. -/
theorem enginesAreIndependent : Obligations.EnginesAreIndependent := by
  intro n S T k l hkl hT
  obtain ⟨t, hk, rfl⟩ := stepAt_eq_next_iff.mp hT
  refine ⟨set_getElem_of_ne S hkl t, ?_, fun U hU => ?_⟩
  · rw [hk]
    exact congrArg _ (Vector.getElem_set_self k.isLt).symm
  · obtain ⟨u, hl, rfl⟩ := stepAt_eq_next_iff.mp hU
    rw [set_getElem_of_ne S hkl] at hl
    refine ⟨_, stepAt_eq_next_iff.mpr ⟨u, hl, rfl⟩, stepAt_eq_next_iff.mpr ⟨t, ?_, ?_⟩⟩
    · rw [set_getElem_of_ne S hkl.symm, hk]
    · exact Vector.set_comm _ _ (Fin.val_ne_of_ne hkl)

end Sys2Proof.Proofs.Engines

/-! Settles the statement about the operations a call performs (30_encoding.md R70, R71): at every
position the operations left in the call are known, and each operation takes itself off them. -/

namespace Sys2Proof.Proofs.CallSequence

open Sys2Proof.Machine Sys2Proof.Safety Sys2Proof.Proofs.MessageReads

/-! ## The operations left in a call -/

/-- The operations of a call from the delivery of the first of its last `k` blocks to its end. -/
def lastBlocks (k : Nat) : List Instr := (List.replicate k blockOps).flatten ++ [.fin]

/-- The operations of BLOCK from a position within it to its end (30_encoding.md R71). -/
def restOfBlock (p : Pos) : List Instr := blockOps.drop (130 - stepsToAcc p)

/-- The operations of the call that are not yet performed (30_encoding.md R70). -/
def opsLeft (s : State) : List Instr :=
  match s.pos with
  | .wait => []
  | .atInit => hashOps s.blocks
  | .atFin => [.fin]
  | p => restOfBlock p ++ lastBlocks (s.blocks - (s.blk + 1))

theorem lastBlocks_succ (k : Nat) : lastBlocks (k + 1) = blockOps ++ lastBlocks k := by
  simp [lastBlocks, List.replicate_succ]

theorem hashOps_eq_cons (N : Nat) : hashOps N = .init :: lastBlocks N := rfl

theorem blockOps_length : blockOps.length = 131 := by simp [blockOps]

theorem hashOps_length (N : Nat) : (hashOps N).length = 2 + 131 * N := by
  simp [hashOps, blockOps_length]
  omega

theorem opsLeft_of_withinBlock {s : State} (h : s.pos = .atPad ∨ blockDelivered s.pos = true) :
    opsLeft s = restOfBlock s.pos ++ lastBlocks (s.blocks - (s.blk + 1)) := by
  unfold opsLeft
  cases hp : s.pos <;> simp_all [blockDelivered]

/-! ## The indexed operations within a block -/

/-- What the rest of a block begins with, once its first operation is known. -/
theorem restOfBlock_cons {p q : Pos} {i : Instr} (hle : stepsToAcc p ≤ 130)
    (hsteps : stepsToAcc p = stepsToAcc q + 1) (hget : blockOps[130 - stepsToAcc p]? = some i) :
    restOfBlock p = i :: restOfBlock q := by
  obtain ⟨hlt, rfl⟩ := List.getElem?_eq_some_iff.mp hget
  have hnext : 130 - stepsToAcc q = 130 - stepsToAcc p + 1 := by omega
  rw [restOfBlock, restOfBlock, hnext, List.drop_eq_getElem_cons hlt]

theorem blockOps_ldw : ∀ j : Fin 64, j.val < 16 →
    blockOps[130 - stepsToAcc (.atLdw j)]? = some (.ldw j) := by decide

theorem blockOps_exw : ∀ j : Fin 64, 16 ≤ j.val →
    blockOps[130 - stepsToAcc (.atExw j)]? = some (.exw j) := by decide

theorem blockOps_rnd : ∀ j : Fin 64,
    blockOps[130 - stepsToAcc (.atRnd j)]? = some (.rnd j) := by decide

/-! ## Each operation takes itself off what is left -/

/-- What is left to show of an operation that moves within a block. -/
theorem opsLeft_within_block {i : Instr} {s t : State}
    (hs : s.pos = .atPad ∨ blockDelivered s.pos = true) (ht : blockDelivered t.pos = true)
    (hblk : t.blk = s.blk) (hlen : t.msgLen = s.msgLen)
    (hrest : restOfBlock s.pos = i :: restOfBlock t.pos) : opsLeft s = i :: opsLeft t := by
  have hN : t.blocks = s.blocks := by simp only [State.blocks, hlen]
  rw [opsLeft_of_withinBlock hs, opsLeft_of_withinBlock (.inr ht), hblk, hN, hrest, List.cons_append]

/-- What is left to show of ACC, at either next position: the next block follows or FIN does. -/
theorem opsLeft_acc {s : State} (hpos : s.pos = .atAcc) :
    opsLeft s = .acc :: opsLeft (s.setHash (addVars s.H s.v)).advanceBlock := by
  have hrest : opsLeft s = .acc :: lastBlocks (s.blocks - (s.blk + 1)) := by
    simp only [opsLeft, hpos]
    rfl
  obtain ⟨hnext, e⟩ | ⟨hlast, e⟩ := (s.setHash (addVars s.H s.v)).advanceBlock_cases <;>
    rw [e, hrest]
  · have hk : s.blocks - (s.blk + 1) = s.blocks - (s.blk + 1 + 1) + 1 := by
      simp only [State.setHash_blk, State.setHash_blocks] at hnext
      omega
    rw [hk, lastBlocks_succ]
    rfl
  · have hk : s.blocks - (s.blk + 1) = 0 := by
      simp only [State.setHash_blk, State.setHash_blocks] at hlast
      omega
    rw [hk]
    rfl

/-- Every operation performed at its position is the first of those left. -/
theorem exec_opsLeft {i : Instr} {s t : State} (hpos : s.pos = Pos.ofInstr i)
    (h : exec i s = .next t) : opsLeft s = i :: opsLeft t := by
  obtain ⟨rfl, rfl⟩ | ⟨rfl, rfl⟩ | ⟨rfl, rfl⟩ | ⟨rfl, rfl⟩ | ⟨rfl, rfl⟩ | ⟨j, hj, rfl, rfl⟩ |
    ⟨j, hj, rfl, rfl⟩ | ⟨j, rfl, rfl⟩ := exec_cases h <;> simp only [Pos.ofInstr] at hpos
  · -- INIT: a call has at least one block
    simp only [opsLeft, hpos, hashOps_eq_cons]
    exact congrArg _ (lastBlocks_succ _)
  · -- PADBLK
    exact opsLeft_within_block (.inl hpos) rfl rfl rfl
      (hpos ▸ restOfBlock_cons (Nat.le_refl 130) rfl rfl)
  · -- LDV
    exact opsLeft_within_block (.inr (hpos ▸ rfl)) rfl rfl rfl (hpos ▸ rfl)
  · -- ACC
    exact opsLeft_acc hpos
  · -- FIN
    simp only [opsLeft, hpos]
  · -- LDW
    exact opsLeft_within_block (.inr (hpos ▸ rfl)) (nextAfterLdw_delivered j) rfl rfl
      (hpos ▸ restOfBlock_cons (by simp only [stepsToAcc]; omega) (stepsToAcc_nextAfterLdw hj)
        (blockOps_ldw j hj))
  · -- EXW
    exact opsLeft_within_block (.inr (hpos ▸ rfl)) (nextAfterExw_delivered j) rfl rfl
      (hpos ▸ restOfBlock_cons (by simp only [stepsToAcc]; omega) (stepsToAcc_nextAfterExw j)
        (blockOps_exw j hj))
  · -- RND
    exact opsLeft_within_block (.inr (hpos ▸ rfl)) (nextAfterRnd_delivered j) rfl rfl
      (hpos ▸ restOfBlock_cons (by simp only [stepsToAcc]; omega) (stepsToAcc_nextAfterRnd j)
        (blockOps_rnd j))

/-! ## The call -/

/-- The operations of a run that begins with an operation. -/
theorem opsOf_succ {n : Nat} {s t : State} {i : Instr} (hturn : s.turn = .perform i)
    (hstep : step s = .next t) : opsOf (n + 1) s = i :: opsOf n t := by
  simp only [opsOf, hturn, hstep]

/-- From any point of a call to its end the engine performs just the operations left. -/
theorem opsOf_stepsLeft {s : State} (hs : Undisturbed s) : opsOf (stepsLeft s) s = opsLeft s := by
  induction hn : stepsLeft s generalizing s with
  | zero =>
    have hwait : s.pos = .wait := stepsLeft_eq_zero_iff.mp hn
    simp only [opsOf, opsLeft, hwait]
  | succ n ih =>
    have hwait : s.pos ≠ .wait := fun h => by simp [stepsLeft_eq_zero_iff.mpr h] at hn
    obtain ⟨i, t, hturn, hstep, ht, hsteps, -⟩ := step_progress hs hwait
    obtain ⟨hpos, hwf⟩ := Guard.turn_perform hturn
    have hexec : exec i s = .next t := by
      rw [← hstep, step_at_ofInstr (hostSilent_of_nil hs.silent) hpos hwf, popInput_of_nil hs.silent]
    rw [opsOf_succ hturn hstep, ih ht (by omega), exec_opsLeft hpos hexec]

/-- Settles O55: a launched call has all operations of its hash sequence left. -/
theorem callPerformsTheHashSequence : Obligations.CallPerformsTheHashSequence := by
  intro M s s0 hin hl
  obtain ⟨hund, hsteps, -⟩ := launch_allLeft hin hl
  have hleft : opsLeft s0 = hashOps (blockCount M.length) := by
    obtain ⟨-, -, rfl⟩ := launch_eq_next_iff.mp hl
    rfl
  exact ⟨by rw [← hsteps, opsOf_stepsLeft hund, hleft], hashOps_length _⟩

end Sys2Proof.Proofs.CallSequence

/-! Settles the statements about the op words (30_encoding.md R63 to R67, R73, R74): the decoder and
the encoder both go through the two fields of a word, so each is known from its fields as numbers. -/

namespace Sys2Proof.Proofs.Encoding

open Sys2Proof.Machine Sys2Proof.Safety

/-! ## The two fields of an op word, as numbers (30_encoding.md R63) -/

theorem cls_toNat (w : OpWord) : w.cls.toNat = w.toNat / 64 := by
  rw [OpWord.cls, BitVec.extractLsb'_toNat, Nat.shiftRight_eq_div_pow]
  omega

theorem idx_val (w : OpWord) : w.idx.val = w.toNat % 64 := by simp [OpWord.idx]

theorem opWordOf_toNat (c : BitVec 2) (x : Fin 64) :
    (opWordOf c x).toNat = 64 * c.toNat + x.val := by
  rw [opWordOf, BitVec.toNat_append, ← Nat.shiftLeft_add_eq_or_of_lt x.isLt, Nat.shiftLeft_eq]
  exact congrArg (· + x.val) (Nat.mul_comm _ _)

theorem cls_eq_iff {w : OpWord} {c : BitVec 2} : w.cls = c ↔ w.toNat / 64 = c.toNat := by
  rw [← BitVec.toNat_inj, cls_toNat]

/-- A word is the encoding of an operation exactly when its two fields are that operation's. -/
theorem encode_eq_iff {i : Instr} {w : OpWord} : encode i = w ↔ w.cls = i.cls ∧ w.idx = i.idx := by
  rw [← BitVec.toNat_inj, encode, opWordOf_toNat, cls_eq_iff, Fin.ext_iff, idx_val]
  have hidx := i.idx.isLt
  omega

/-! ## The decoder, class by class (30_encoding.md R73) -/

theorem decode_control {w : OpWord} (h : w.cls = 0) : decode w = decodeControl w.idx := by
  simp [decode, h]

theorem decode_load {w : OpWord} (h : w.cls = 1) :
    decode w = if w.idx.val ≤ 15 then .op (.ldw w.idx) else .invalid (.reservedLoad w.idx) := by
  simp [decode, h]

theorem decode_expand {w : OpWord} (h : w.cls = 2) :
    decode w = if 16 ≤ w.idx.val then .op (.exw w.idx) else .invalid (.reservedExpand w.idx) := by
  simp [decode, h]

theorem decode_round {w : OpWord} (h : w.cls = 3) : decode w = .op (.rnd w.idx) := by
  simp [decode, h]

/-- The four classes are all there are (30_encoding.md R64). -/
theorem cls_cases (w : OpWord) : w.cls = 0 ∨ w.cls = 1 ∨ w.cls = 2 ∨ w.cls = 3 := by
  have hw : w.toNat < 256 := w.isLt
  simp only [cls_eq_iff, BitVec.reduceToNat]
  omega

/-- When the decoder names no operation (30_encoding.md R67). -/
theorem decode_invalid_iff {w : OpWord} :
    (∃ why, decode w = .invalid why) ↔
      w.cls = 0 ∧ 5 ≤ w.idx.val ∨ w.cls = 1 ∧ 16 ≤ w.idx.val ∨ w.cls = 2 ∧ w.idx.val ≤ 15 := by
  obtain h | h | h | h := cls_cases w
  · rw [decode_control h, h, decodeControl]
    split_ifs <;> simp <;> omega
  · rw [decode_load h, h]
    split_ifs <;> simp <;> omega
  · rw [decode_expand h, h]
    split_ifs <;> simp <;> omega
  · simp [decode_round h, h]

/-- The decoder gives operations with their index in range only, each from its own op word. -/
theorem fields_of_decode {w : OpWord} {i : Instr} (h : decode w = .op i) :
    i.wellFormed = true ∧ w.cls = i.cls ∧ w.idx = i.idx := by
  obtain hc | hc | hc | hc := cls_cases w
  · rw [decode_control hc, decodeControl] at h
    split_ifs at h <;> cases h <;> exact ⟨rfl, hc, Fin.ext ‹_›⟩
  · rw [decode_load hc] at h
    split_ifs at h with hlt
    cases h
    exact ⟨decide_eq_true (Nat.lt_succ_of_le hlt), hc, rfl⟩
  · rw [decode_expand hc] at h
    split_ifs at h with hle
    cases h
    exact ⟨decide_eq_true hle, hc, rfl⟩
  · rw [decode_round hc] at h
    cases h
    exact ⟨rfl, hc, rfl⟩

/-- A word with the fields of an operation, its index in range, decodes to it. -/
theorem decode_of_fields {w : OpWord} {i : Instr} (hwf : i.wellFormed = true)
    (hcls : w.cls = i.cls) (hidx : w.idx = i.idx) : decode w = .op i := by
  cases i with
  | ldw j =>
    rw [decode_load hcls, hidx]
    exact if_pos (Nat.le_of_lt_succ (of_decide_eq_true hwf))
  | exw j =>
    rw [decode_expand hcls, hidx]
    exact if_pos (of_decide_eq_true hwf)
  | rnd j => rw [decode_round hcls, hidx]; rfl
  | _ => rw [decode_control hcls, hidx]; rfl

/-- The decoder names an operation exactly when its index is in range and the word is its encoding
(30_encoding.md R64 to R66, R73). -/
theorem decode_eq_op_iff {w : OpWord} {i : Instr} :
    decode w = .op i ↔ i.wellFormed = true ∧ encode i = w := by
  rw [encode_eq_iff]
  exact ⟨fields_of_decode, fun ⟨hwf, hcls, hidx⟩ => decode_of_fields hwf hcls hidx⟩

theorem decode_encode {i : Instr} (hwf : i.wellFormed = true) : decode (encode i) = .op i :=
  decode_eq_op_iff.mpr ⟨hwf, rfl⟩

/-- Settles O2: both parts are read off the one equivalence. -/
theorem decodeInvertsEncode : Obligations.DecodeInvertsEncode :=
  ⟨fun _ => decode_encode, fun _ _ h => (decode_eq_op_iff.mp h).1⟩

/-- Settles O1: each row is a class of words and a range of its indices. -/
theorem decodeFollowsTheCaseTable : Obligations.DecodeFollowsTheCaseTable := by
  intro w
  have hinvalid := decode_invalid_iff (w := w)
  simp only [cls_eq_iff, idx_val] at hinvalid
  have hop (i : Instr) (hwf : i.wellFormed = true) (hcls : w.toNat / 64 = i.cls.toNat)
      (hidx : w.toNat % 64 = i.idx.val) : decode w = .op i :=
    decode_of_fields hwf (cls_eq_iff.mpr hcls) (Fin.ext ((idx_val w).trans hidx))
  exact ⟨fun hc => ⟨hop .init rfl hc, hop .padblk rfl hc, hop .ldv rfl hc, hop .acc rfl hc,
      hop .fin rfl hc,
      fun h => hinvalid.mpr (.inl ⟨hc, h⟩)⟩,
    fun hc => ⟨fun h => hop (.ldw _) (decide_eq_true (Nat.lt_succ_of_le h)) hc rfl,
      fun h => hinvalid.mpr (.inr (.inl ⟨hc, h⟩))⟩,
    fun hc => ⟨fun h => hop (.exw _) (decide_eq_true h) hc rfl,
      fun h => hinvalid.mpr (.inr (.inr ⟨hc, h⟩))⟩,
    fun hc => hop (.rnd _) rfl hc rfl,
    fun i h => (decode_eq_op_iff.mp h).2⟩

/-! ## The op words of the positions (30_encoding.md R74) -/

theorem encode_toNat (i : Instr) : (encode i).toNat = 64 * i.cls.toNat + i.idx.val :=
  opWordOf_toNat i.cls i.idx

theorem opWordOf_eq_add (c : BitVec 2) (x : Fin 64) :
    opWordOf c x = BitVec.ofNat 8 (64 * c.toNat) + BitVec.ofNat 8 x.val := by
  rw [← BitVec.ofNat_add, ← opWordOf_toNat, BitVec.ofNat_toNat, BitVec.setWidth_eq]

/-- The sequencer produces at an operation's position the encoding of that operation. -/
theorem opWord_ofInstr (i : Instr) : (Pos.ofInstr i).opWord = some (encode i) := by
  cases i with
  | ldw j => exact congrArg some (opWordOf_eq_add 1 j).symm
  | exw j => exact congrArg some (opWordOf_eq_add 2 j).symm
  | rnd j => exact congrArg some (opWordOf_eq_add 3 j).symm
  | _ => rfl

/-- Settles O3: the ranges are the classes' unused indices, the count is evaluated over all words, and
a legal position other than WAIT is an operation's. -/
theorem reservedWordsNameNoOperation : Obligations.ReservedWordsNameNoOperation := by
  refine ⟨fun w => ?_, by decide +kernel, fun p hlegal w hw => ?_⟩
  · rw [decode_invalid_iff]
    simp only [cls_eq_iff, idx_val, BitVec.reduceToNat]
    omega
  · have hwait : p ≠ .wait := by rintro rfl; cases hw
    obtain ⟨i, rfl, hwf⟩ := MessageReads.exists_ofInstr_of_legal hlegal hwait
    rw [opWord_ofInstr] at hw
    cases hw
    exact ⟨i, decode_encode hwf⟩

/-- An operation's op word is produced at its position and decodes to it. -/
theorem exists_opWord_ofInstr {i : Instr} (hwf : i.wellFormed = true) :
    ∃ w : OpWord, (Pos.ofInstr i).opWord = some w ∧ w.toNat = 64 * i.cls.toNat + i.idx.val ∧
      decode w = .op i :=
  ⟨encode i, opWord_ofInstr i, encode_toNat i, decode_encode hwf⟩

/-- Settles O4: every clause is the same fact about its operation. -/
theorem positionProducesItsOpWord : Obligations.PositionProducesItsOpWord :=
  ⟨rfl, rfl, decode_encode (i := .init) rfl, rfl, decode_encode (i := .padblk) rfl,
    fun j hj => exists_opWord_ofInstr (i := .ldw j) (decide_eq_true hj),
    fun j hj => exists_opWord_ofInstr (i := .exw j) (decide_eq_true hj),
    rfl, decode_encode (i := .ldv) rfl, fun j => exists_opWord_ofInstr (i := .rnd j) rfl,
    rfl, decode_encode (i := .acc) rfl, rfl, decode_encode (i := .fin) rfl⟩

/-- Settles O5: the decoder evaluated on each word. -/
theorem writtenOutWordsDecode : Obligations.WrittenOutWordsDecode := by
  unfold Obligations.WrittenOutWordsDecode
  decide

/-! ## The step and a placed op word -/

/-- Settles O6: the engine's turn is to perform the operation, and the host leaves it the turn. -/
theorem stepPerformsTheDecodedOperation : Obligations.StepPerformsTheDecodedOperation := by
  intro s w i hsilent hw hd
  have hturn : s.engineTurn = .perform i := by simp only [State.engineTurn, hw, hd]
  obtain ⟨hpos, hwf⟩ := State.engineTurn_perform_iff.mp hturn
  have hstep : step s = exec i s.popInput := step_at_ofInstr hsilent hpos hwf
  exact ⟨hstep, fun hin => hstep.trans (by rw [popInput_of_nil hin])⟩

theorem decodeTableWord_encode {i : Instr} (hwf : i.wellFormed = true) :
    decodeTableWord 8 (encode i).toNat = some i := by
  rw [decodeTableWord, if_pos ⟨rfl, (encode i).isLt⟩, BitVec.ofNat_toNat, BitVec.setWidth_eq,
    decode_encode hwf]

/-- Settles O7: the placed word is the operation's own, so its position is the one placed. -/
theorem placedWordIsPerformedNext : Obligations.PlacedWordIsPerformedNext := by
  intro i s hwf
  have hplaced : s.withFetchWord 8 (encode i).toNat =
      { s with pos := Pos.ofInstr i, hostInputs := [] } := by
    rw [State.withFetchWord, decodeTableWord_encode hwf]
    rfl
  rw [hplaced, step_at_ofInstr (hostSilent_of_nil rfl) rfl hwf, popInput_of_nil rfl]

/-- Settles O19: this is what the meanings of LDW and EXW answer outside their ranges. -/
theorem reservedIndexStops : Obligations.ReservedIndexStops :=
  ⟨fun s j => exec_ldw_reserved j s, fun s j => exec_exw_reserved j s⟩

end Sys2Proof.Proofs.Encoding

/-! Settles the statements about the padding (40_padding_controller.md): the arithmetic of the zero fill
and of the block count, the length field as a number, and PADBLK by the bytes of its block. -/

namespace Sys2Proof.Proofs.Padding

open Sys2Proof.Machine Sys2Proof.Proofs.BytePacking Sys2Proof.Proofs.Control
open Sys2Proof.Proofs.DigestVector Sys2Proof.Proofs.Encoding

/-! ## The zero fill and the block count -/

/-- The zero fill by the residue of the length (40_padding_controller.md R81). -/
theorem padZeros_eq (L : Nat) :
    padZeros L = if L % 64 ≤ 55 then 55 - L % 64 else 119 - L % 64 := by
  unfold padZeros
  split <;> omega

/-- The block count by the quotient and the residue of the length (40_padding_controller.md R83). -/
theorem blockCount_eq (L : Nat) : blockCount L = L / 64 + (if L % 64 ≤ 55 then 1 else 2) := by
  unfold blockCount
  split <;> omega

/-- Settles O31: the residue decides between the two closed forms, and each reaches 56 first. -/
theorem zeroFillIsTheLeast : Obligations.ZeroFillIsTheLeast := by
  intro L
  rw [padZeros_eq]
  split <;> refine ⟨?_, ?_, fun k hk => ?_, ?_, ?_⟩ <;> omega

/-- Settles O33: the residue of the length is `r`. -/
theorem lengthBoundaryAddsABlock : Obligations.LengthBoundaryAddsABlock := by
  intro q r
  have hr (h : r ≤ 63) : (64 * q + r) / 64 = q ∧ (64 * q + r) % 64 = r := by omega
  refine ⟨fun h => ?_, fun hlo hhi => ?_⟩
  · obtain ⟨hquot, hres⟩ := hr (by omega)
    rw [blockCount_eq, hquot, hres, if_pos h]
  · obtain ⟨hquot, hres⟩ := hr hhi
    rw [blockCount_eq, hquot, hres, if_neg (by omega)]

/-- Settles O30: the parts of the padded message add up to whole blocks. -/
theorem paddedLengthIsWholeBlocks : Obligations.PaddedLengthIsWholeBlocks :=
  ⟨by decide, fun M =>
    ⟨pad_length M, (pad_length M).trans (padZeros_add M.length), rfl, blockCount_eq M.length,
      Nat.le_add_left 1 _, blockCount_le⟩⟩

/-- Settles O34: `pad` evaluated on the empty message. -/
theorem emptyMessageIsOneBlock : Obligations.EmptyMessageIsOneBlock := ⟨by decide, by decide⟩

/-! ## The length field as a number (40_padding_controller.md R82) -/

/-- The first `m` bytes of `bytes64 n` are the number `n` without its last `8 - m` bytes. -/
theorem bigEndian_take_bytes64 {n : Nat} (hn : n < 2 ^ 64) (m : Nat) (hm : m ≤ 8) :
    bigEndian ((bytes64 n).take m) = n / 2 ^ (8 * (8 - m)) := by
  induction m with
  | zero => exact (Nat.div_eq_of_lt hn).symm
  | succ m ih =>
    have hlen : m < (bytes64 n).length := by rwa [bytes64_length]
    have hbyte : (bytes64 n)[m].toNat = n / 2 ^ (8 * (7 - m)) % 256 := by
      rw [← bytes64_getD_toNat n ⟨m, hm⟩, List.getD_eq_getElem _ _ hlen]
    have hshift : n / 2 ^ (8 * (8 - m)) = n / 2 ^ (8 * (7 - m)) / 256 := by
      rw [show 8 * (8 - m) = 8 * (7 - m) + 8 by omega, pow_add, ← Nat.div_div_eq_div_mul]
      rfl
    rw [← List.take_append_getElem hlen, bigEndian_concat, ih (by omega), hbyte, hshift,
      Nat.div_add_mod', show 8 - (m + 1) = 7 - m by omega]

theorem bigEndian_bytes64 {n : Nat} (hn : n < 2 ^ 64) : bigEndian (bytes64 n) = n := by
  have htake : (bytes64 n).take 8 = bytes64 n := List.take_of_length_le (bytes64_length n).le
  simpa [htake] using bigEndian_take_bytes64 hn 8 le_rfl

/-- The last 8 bytes of the padded message are its length field. -/
theorem pad_drop_length_sub (M : List Byte) :
    (pad M).drop ((pad M).length - 8) = lengthField M.length := by
  unfold pad
  rw [List.length_append, lengthField_length, Nat.add_sub_cancel, List.drop_left]

/-- Settles O32: for a legal length the field is `bytes64` of a number that fits. -/
theorem lengthFieldHoldsTheBitLength : Obligations.LengthFieldHoldsTheBitLength := by
  intro M hM
  rw [pad_drop_length_sub, lengthField_of_legal hM]
  exact bigEndian_bytes64 (by omega)

/-! ## The bytes of a block (40_padding_controller.md R88) -/

section

variable {s : State} {p : Nat}

/-- Below L the padding byte is the byte of the message. -/
theorem memRead_eq_some_padByte (h : p < s.msgLen) : s.memRead p = some (s.padByte p) := by
  have hread : s.memRead p = some (Memory.read s.msg p) := if_pos h
  rw [State.padByte, hread]

/-- From L on there is no message byte, and the position decides. -/
theorem padByte_of_le (h : s.msgLen ≤ p) :
    s.padByte p =
      if p = s.msgLen then 0x80
      else if p < 64 * s.blocks - 8 then 0x00
      else if p < 64 * s.blocks ∧ s.msgLen ≤ 2 ^ 61 - 1 then
        BitVec.ofNat 8 ((8 * s.msgLen) >>> (8 * (64 * s.blocks - 1 - p)))
      else Config.undefinedPadding s.msgLen p := by
  have hread : s.memRead p = none := if_neg (Nat.not_lt.mpr h)
  rw [State.padByte, hread]

theorem padByte_mark (h : p = s.msgLen) : s.padByte p = 0x80 := by
  rw [padByte_of_le h.ge, if_pos h]

theorem padByte_zeroFill (hlo : s.msgLen < p) (hhi : p < 64 * s.blocks - 8) :
    s.padByte p = 0x00 := by
  rw [padByte_of_le hlo.le, if_neg hlo.ne', if_pos hhi]

theorem padByte_lengthField (hlegal : s.msgLen ≤ 2 ^ 61 - 1) (hlo : 64 * s.blocks - 8 ≤ p)
    (hhi : p < 64 * s.blocks) :
    (s.padByte p).toNat = (8 * s.msgLen) / 2 ^ (8 * (64 * s.blocks - 1 - p)) % 256 := by
  have hL : s.msgLen < p := by
    unfold State.blocks blockCount at hlo
    omega
  rw [padByte_of_le hL.le, if_neg hL.ne', if_neg (Nat.not_lt.mpr hlo), if_pos ⟨hhi, hlegal⟩,
    BitVec.toNat_ofNat, Nat.shiftRight_eq_div_pow]

end

theorem padBlock_getElem (s : State) (i : Nat) (q : Fin 64) :
    (s.padBlock i)[q] = s.padByte (64 * i + q.val) := by
  simp [State.padBlock]

/-- Settles O12: the block PADBLK writes, byte by byte. -/
theorem padblkResult : Obligations.PadblkResult := by
  refine ⟨rfl, decode_encode (i := .padblk) rfl, fun s => ⟨s.padBlock s.blk, exec_padblk s, ?_⟩⟩
  rintro hblk hlegal q _ _ rfl rfl
  have hend : 64 * s.blk + q.val < 64 * s.blocks := by
    unfold State.blocks blockCount
    omega
  rw [padBlock_getElem]
  exact ⟨memRead_eq_some_padByte, padByte_mark, padByte_zeroFill,
    fun hlo => padByte_lengthField hlegal hlo hend⟩

/-- A block of the call is the 64 bytes of the padded message from its start on
(40_padding_controller.md R86). -/
theorem padBlock_toList {s : State} {i : Nat} (hi : i < blockCount s.msgLen) :
    (s.padBlock i).toList = ((pad s.message).drop (64 * i)).take 64 := by
  apply List.ext_getElem?
  intro q
  by_cases hq : q < 64
  · have hbyte : (s.padBlock i)[q] = s.padByte (64 * i + q) := padBlock_getElem s i ⟨q, hq⟩
    rw [List.getElem?_take_of_lt hq, List.getElem?_drop, pad_getElem?_eq_padByte s _ (by omega),
      Vector.getElem?_toList, Vector.getElem?_eq_getElem hq, hbyte]
  · rw [List.getElem?_eq_none (by simpa using hq), List.getElem?_eq_none (by simp; omega)]

/-- Settles O35: the block PADBLK writes is the one of the padded message. -/
theorem padblkDeliversTheBlock : Obligations.PadblkDeliversTheBlock :=
  ⟨rfl, decode_encode (i := .padblk) rfl, fun s _ hblk =>
    ⟨s.padBlock s.blk, exec_padblk s, padBlock_toList hblk⟩⟩

end Sys2Proof.Proofs.Padding

/-! Settles the statements about the message scheduler (41_message_scheduler.md): LDW and EXW by the
next states they answer, the small sigmas bit by bit, and the schedule as the one array that meets
its recurrence. -/

namespace Sys2Proof.Proofs.Scheduler

open Sys2Proof.Machine Sys2Proof.Safety Sys2Proof.Proofs.Data Sys2Proof.Proofs.Elements
open Sys2Proof.Proofs.Encoding

/-! ## Where LDW and EXW move to (43_hash_accumulator.md R124) -/

theorem mk_succ_eq_add_one {j : Fin 64} (h : j.val < 63) :
    (⟨j.val + 1, by omega⟩ : Fin 64) = j + 1 :=
  Fin.ext (Fin.val_add_one_of_lt' (by omega)).symm

theorem nextAfterLdw_eq (j : Fin 64) :
    nextAfterLdw j = if j.val < 15 then .atLdw (j + 1) else .atExw 16 := by
  unfold nextAfterLdw
  split
  · rw [mk_succ_eq_add_one (by omega)]
  · rfl

theorem nextAfterExw_eq (j : Fin 64) :
    nextAfterExw j = if j.val < 63 then .atExw (j + 1) else .atLdv := by
  unfold nextAfterExw
  split
  · rw [mk_succ_eq_add_one ‹_›]
  · rfl

/-! ## The operations -/

/-- Writing entry `j` of W leaves the other entries. -/
theorem set_getElem_of_ne (s : State) {j k : Fin 64} (x : Word) (h : k ≠ j) :
    (s.W.set j.val x)[k] = s.W[k] :=
  (same_setWord (x := .W k) (by simpa using h)).symm

/-- Settles O13: the word LDW writes is four bytes of B packed big-endian. -/
theorem ldwResult : Obligations.LdwResult := by
  intro s j h
  refine ⟨exists_opWord_ofInstr (i := .ldw j) (decide_eq_true h),
    s.W.set j.val (loadWord s.B j.val h), ?_, ?_, fun k hk => set_getElem_of_ne s _ hk⟩
  · rw [exec_ldw j s h, nextAfterLdw_eq]
  · exact (congrArg BitVec.toNat (Vector.getElem_set_self _)).trans (be32_toNat _ _ _ _)

/-- Settles O14: the word EXW writes, its small sigmas in core's rotations. -/
theorem exwResult : Obligations.ExwResult := by
  intro s j h
  refine ⟨exists_opWord_ofInstr (i := .exw j) (decide_eq_true h),
    s.W.set j.val (expandWord s.W j.val h j.isLt), ?_, ?_, fun k hk => set_getElem_of_ne s _ hk⟩
  · rw [exec_exw j s h, nextAfterExw_eq]
  · refine (Vector.getElem_set_self _).trans ?_
    rw [expandWord, smallSigma0, smallSigma1,
      mixRotationsShift_eq_rotateRight _ 7 18 3 (by decide) (by decide),
      mixRotationsShift_eq_rotateRight _ 17 19 10 (by decide) (by decide)]

/-! ## The small sigmas (41_message_scheduler.md R95, R96) -/

/-- The shift is logical: from bit `32 - shift` on it brings in zeros. -/
theorem mixRotationsShift_getLsbD (x : Word) {n1 n2 shift i : Nat} (h1 : 0 < n1 ∧ n1 < 32)
    (h2 : 0 < n2 ∧ n2 < 32) (hi : i < 32) :
    (mixRotationsShift x n1 n2 shift).getLsbD i =
      (x.getLsbD ((i + n1) % 32) ^^ x.getLsbD ((i + n2) % 32) ^^
        (decide (i + shift < 32) && x.getLsbD (i + shift))) := by
  have hshift : (x >>> shift).getLsbD i = (decide (i + shift < 32) && x.getLsbD (i + shift)) := by
    rw [BitVec.getLsbD_ushiftRight, Nat.add_comm]
    by_cases hin : i + shift < 32
    · rw [decide_eq_true hin, Bool.true_and]
    · rw [decide_eq_false hin, Bool.false_and, BitVec.getLsbD_of_ge _ _ (Nat.le_of_not_lt hin)]
  rw [mixRotationsShift, BitVec.getLsbD_xor, BitVec.getLsbD_xor,
    rotr_getLsbD x n1 i h1.1 h1.2 hi, rotr_getLsbD x n2 i h2.1 h2.2 hi, hshift]

/-- Settles O22: both small sigmas have the one form. -/
theorem smallSigmasBitByBit : Obligations.SmallSigmasBitByBit := fun x _ hi =>
  ⟨mixRotationsShift_getLsbD x (by decide) (by decide) hi,
    mixRotationsShift_getLsbD x (by decide) (by decide) hi⟩

/-! ## The recurrence (41_message_scheduler.md R99) -/

/-- The two schedule equations determine every entry: it comes from the block or from earlier
entries. -/
theorem eq_schedule_of_recurrence {B : Vector Byte 64} {W : Vector Word 64}
    (hload : ∀ (j : Fin 64) (h : j.val < 16), W[j] = loadWord B j.val h)
    (hexpand : ∀ (j : Fin 64) (h : 16 ≤ j.val), W[j] = expandWord W j.val h j.isLt) :
    W = schedule B := by
  have hentry (n : Nat) : ∀ hn : n < 64, W[n] = (schedule B)[n] := by
    induction n using Nat.strong_induction_on with
    | h n ih =>
      intro hn
      by_cases h : n < 16
      · exact (hload ⟨n, hn⟩ h).trans (schedule_load B ⟨n, hn⟩ h).symm
      · have h16 : 16 ≤ n := Nat.le_of_not_lt h
        calc W[n] = expandWord W n h16 hn := hexpand ⟨n, hn⟩ h16
          _ = expandWord (schedule B) n h16 hn := expandWord_congr h16 hn fun i hi => ih i hi i.isLt
          _ = (schedule B)[n] := (schedule_expand B ⟨n, hn⟩ h16).symm
  exact Vector.ext hentry

/-- Settles O29: the schedule meets both equations, and they determine every entry. -/
theorem scheduleSatisfiesTheRecurrence : Obligations.ScheduleSatisfiesTheRecurrence := by
  intro B W
  constructor
  · rintro rfl
    exact ⟨fun j h => schedule_load B ⟨j, by omega⟩ h,
      fun j h h16 => schedule_expand B ⟨j, h⟩ h16⟩
  · rintro ⟨hload, hexpand⟩
    exact eq_schedule_of_recurrence (fun j h => hload j.val h) fun j h => hexpand j.val j.isLt h

end Sys2Proof.Proofs.Scheduler

/-! Settles the statements about the compress engine (42_compress_engine.md): LDV and RND by the
next states they answer, the word functions bit by bit, and one BLOCK by the state the engine is in
at each of its positions. -/

namespace Sys2Proof.Proofs.Compress

open Sys2Proof.Machine Sys2Proof.Safety Sys2Proof.Proofs.Data Sys2Proof.Proofs.Encoding
open Sys2Proof.Proofs.MessageReads Sys2Proof.Proofs.Scheduler

/-! ## The word functions (42_compress_engine.md R105 to R108) -/

theorem mixRotations_getLsbD (x : Word) {n1 n2 n3 i : Nat} (h1 : 0 < n1 ∧ n1 < 32)
    (h2 : 0 < n2 ∧ n2 < 32) (h3 : 0 < n3 ∧ n3 < 32) (hi : i < 32) :
    (mixRotations x n1 n2 n3).getLsbD i =
      (x.getLsbD ((i + n1) % 32) ^^ x.getLsbD ((i + n2) % 32) ^^ x.getLsbD ((i + n3) % 32)) := by
  rw [mixRotations, BitVec.getLsbD_xor, BitVec.getLsbD_xor, rotr_getLsbD x n1 i h1.1 h1.2 hi,
    rotr_getLsbD x n2 i h2.1 h2.2 hi, rotr_getLsbD x n3 i h3.1 h3.2 hi]

/-- Settles O23: both big sigmas have the one form. -/
theorem bigSigmasBitByBit : Obligations.BigSigmasBitByBit := fun x _ hi =>
  ⟨mixRotations_getLsbD x (by decide) (by decide) (by decide) hi,
    mixRotations_getLsbD x (by decide) (by decide) (by decide) hi⟩

theorem ch_getLsbD (e f g : Word) {i : Nat} (hi : i < 32) :
    (ch e f g).getLsbD i = if e.getLsbD i then f.getLsbD i else g.getLsbD i := by
  rw [ch, BitVec.getLsbD_xor, BitVec.getLsbD_and, BitVec.getLsbD_and, BitVec.getLsbD_not,
    decide_eq_true hi]
  cases e.getLsbD i <;> simp

/-- The exclusive or of the three pairwise conjunctions is the majority of three bits. -/
theorem xor_and_eq_majority (a b c : Bool) :
    ((a && b) ^^ (a && c) ^^ (b && c)) = decide (2 ≤ a.toNat + b.toNat + c.toNat) := by
  revert a b c
  decide

theorem maj_getLsbD (a b c : Word) (i : Nat) :
    (maj a b c).getLsbD i =
      decide (2 ≤ (a.getLsbD i).toNat + (b.getLsbD i).toNat + (c.getLsbD i).toNat) := by
  simp only [maj, BitVec.getLsbD_xor, BitVec.getLsbD_and, xor_and_eq_majority]

theorem maj_swap_left (a b c : Word) : maj a b c = maj b a c :=
  BitVec.eq_of_getLsbD_eq fun i _ => by
    rw [maj_getLsbD, maj_getLsbD, Nat.add_comm (a.getLsbD i).toNat]

theorem maj_swap_right (a b c : Word) : maj a b c = maj a c b :=
  BitVec.eq_of_getLsbD_eq fun i _ => by rw [maj_getLsbD, maj_getLsbD, Nat.add_right_comm]

/-- Settles O24: Ch selects, and Maj counts ones, which no order of the arguments changes. -/
theorem chooseAndMajorityBitByBit : Obligations.ChooseAndMajorityBitByBit :=
  ⟨fun e f g _ hi => ch_getLsbD e f g hi, fun a b c i _ => maj_getLsbD a b c i,
    fun a b c => ⟨maj_swap_left a b c, maj_swap_right a b c⟩⟩

/-! ## The operations (42_compress_engine.md R109 to R111) -/

/-- Settles O15: this is the next state LDV answers. -/
theorem ldvResult : Obligations.LdvResult :=
  ⟨rfl, decode_encode (i := .ldv) rfl, exec_ldv⟩

theorem nextAfterRnd_eq (j : Fin 64) :
    nextAfterRnd j = if j.val < 63 then .atRnd (j + 1) else .atAcc := by
  unfold nextAfterRnd
  split
  · rw [mk_succ_eq_add_one ‹_›]
  · rfl

theorem bigSigma0_eq_rotateRight (a : Word) :
    bigSigma0 a = a.rotateRight 2 ^^^ a.rotateRight 13 ^^^ a.rotateRight 22 :=
  mixRotations_eq_rotateRight a 2 13 22 (by decide) (by decide) (by decide)

theorem bigSigma1_eq_rotateRight (e : Word) :
    bigSigma1 e = e.rotateRight 6 ^^^ e.rotateRight 11 ^^^ e.rotateRight 25 :=
  mixRotations_eq_rotateRight e 6 11 25 (by decide) (by decide) (by decide)

/-- Settles O16: the round's two temporaries, their big sigmas in core's rotations. -/
theorem rndResult : Obligations.RndResult := by
  refine ⟨fun j => exists_opWord_ofInstr (i := .rnd j) rfl, ?_⟩
  rintro s j temp1 temp2 h1 h2
  have htemp1 : s.v.temp1 (K j) s.W[j] = temp1 := by
    rw [Vars.temp1, bigSigma1_eq_rotateRight, ch, h1]
  have htemp2 : s.v.temp2 = temp2 := by
    rw [Vars.temp2, bigSigma0_eq_rotateRight, maj, h2]
  rw [exec_rnd, nextAfterRnd_eq, oneRound, htemp1, htemp2]

/-! ## The positions of one BLOCK (30_encoding.md R71) -/

/-- The registers that a BLOCK writes before its ACC. -/
structure BlockRegs where
  B : Vector Byte 64
  W : Vector Word 64
  v : Vars

/-- The engine at position `p` of the BLOCK that begins in `s`, with `r` in the registers that the
BLOCK writes: up to the ACC nothing else changes. -/
def duringBlock (s : State) (r : BlockRegs) (p : Pos) : State :=
  { s with B := r.B, W := r.W, v := r.v, pos := p }

/-- What the operations before position `p` have computed of the BLOCK that begins in `s`: the
current block, its schedule, the rounds on the hash state. Outside a BLOCK nothing is. -/
def ComputedAt (s : State) (r : BlockRegs) : Pos → Prop
  | .atPad => True
  | .atLdw j => j.val < 16 ∧ r.B = currentBlock s ∧ ScheduledTo (currentBlock s) r.W j.val
  | .atExw j => 16 ≤ j.val ∧ r.B = currentBlock s ∧ ScheduledTo (currentBlock s) r.W j.val
  | .atLdv => r.B = currentBlock s ∧ r.W = schedule (currentBlock s)
  | .atRnd j =>
    r.B = currentBlock s ∧ r.W = schedule (currentBlock s) ∧
      r.v = roundsTo (Vars.ofHash s.H) (schedule (currentBlock s)) j.val
  | .atAcc =>
    r.B = currentBlock s ∧ r.W = schedule (currentBlock s) ∧
      r.v = rounds (Vars.ofHash s.H) (schedule (currentBlock s))
  | .wait | .atInit | .atFin => False

section

variable {s : State} {r : BlockRegs} {j : Fin 64}

/-- After word 15 the loads give way to the extension. -/
theorem computedAt_nextAfterLdw (hj : j.val < 16) (hB : r.B = currentBlock s)
    (hW : ScheduledTo (currentBlock s) r.W (j.val + 1)) : ComputedAt s r (nextAfterLdw j) := by
  unfold nextAfterLdw
  split
  · exact ⟨by simp only; omega, hB, hW⟩
  · have h16 : j.val + 1 = 16 := by omega
    exact ⟨le_rfl, hB, by rwa [h16] at hW⟩

/-- After word 63 the schedule is complete. -/
theorem computedAt_nextAfterExw (hj : 16 ≤ j.val) (hB : r.B = currentBlock s)
    (hW : ScheduledTo (currentBlock s) r.W (j.val + 1)) : ComputedAt s r (nextAfterExw j) := by
  unfold nextAfterExw
  split
  · exact ⟨by simp only; omega, hB, hW⟩
  · have h64 : j.val + 1 = 64 := by omega
    exact ⟨hB, (h64 ▸ hW).eq_schedule⟩

/-- After round 63 all rounds are done. -/
theorem computedAt_nextAfterRnd (hB : r.B = currentBlock s) (hW : r.W = schedule (currentBlock s))
    (hv : r.v = roundsTo (Vars.ofHash s.H) (schedule (currentBlock s)) (j.val + 1)) :
    ComputedAt s r (nextAfterRnd j) := by
  unfold nextAfterRnd
  split
  · exact ⟨hB, hW, hv⟩
  · have h64 : j.val + 1 = 64 := by omega
    exact ⟨hB, hW, by rw [hv, h64, rounds]⟩

end

/-! ## The whole BLOCK -/

/-- Every operation of a BLOCK before its ACC is one step to the next position, where one thing more
is computed. -/
theorem exec_duringBlock {s : State} {r : BlockRegs} {p : Pos} (h : ComputedAt s r p)
    (hacc : p ≠ .atAcc) :
    ∃ i r' q, p = Pos.ofInstr i ∧ i.wellFormed = true ∧ stepsToAcc p = stepsToAcc q + 1 ∧
      exec i (duringBlock s r p) = .next (duringBlock s r' q) ∧ ComputedAt s r' q := by
  cases p with
  | atPad =>
    have hB : s.padBlock s.blk = currentBlock s := (block_message s s.blk).symm
    exact ⟨.padblk, { r with B := s.padBlock s.blk }, .atLdw 0, rfl, rfl, rfl, exec_padblk _,
      by decide, hB, scheduledTo_zero _ _⟩
  | atLdw j =>
    obtain ⟨hj, hB, hW⟩ := h
    have hW' :
        ScheduledTo (currentBlock s) (r.W.set j.val (loadWord r.B j.val hj)) (j.val + 1) := by
      rw [hB]
      exact hW.load hj
    exact ⟨.ldw j, { r with W := r.W.set j.val (loadWord r.B j.val hj) }, nextAfterLdw j, rfl,
      decide_eq_true hj, stepsToAcc_nextAfterLdw hj, exec_ldw j _ hj,
      computedAt_nextAfterLdw hj hB hW'⟩
  | atExw j =>
    obtain ⟨hj, hB, hW⟩ := h
    exact ⟨.exw j, { r with W := r.W.set j.val (expandWord r.W j.val hj j.isLt) }, nextAfterExw j,
      rfl, decide_eq_true hj, stepsToAcc_nextAfterExw j, exec_exw j _ hj,
      computedAt_nextAfterExw hj hB (hW.expand hj)⟩
  | atLdv =>
    obtain ⟨hB, hW⟩ := h
    exact ⟨.ldv, { r with v := Vars.ofHash s.H }, .atRnd 0, rfl, rfl, rfl, exec_ldv _, hB, hW, rfl⟩
  | atRnd j =>
    obtain ⟨hB, hW, hv⟩ := h
    have hv' : oneRound r.v (K j) r.W[j] =
        roundsTo (Vars.ofHash s.H) (schedule (currentBlock s)) (j.val + 1) := by
      simp only [roundsTo_succ _ _ _ j.isLt, hW, hv, Fin.eta, Fin.getElem_fin]
    exact ⟨.rnd j, { r with v := oneRound r.v (K j) r.W[j] }, nextAfterRnd j, rfl, rfl,
      stepsToAcc_nextAfterRnd j, exec_rnd j _, computedAt_nextAfterRnd hB hW hv'⟩
  | atAcc => exact absurd rfl hacc
  | wait => exact h.elim
  | atInit => exact h.elim
  | atFin => exact h.elim

/-- A run that begins with an operation. -/
theorem run_one_add {n : Nat} {s t : State} {i : Instr} (hin : s.hostInputs = [])
    (hpos : s.pos = Pos.ofInstr i) (hwf : i.wellFormed = true) (h : exec i s = .next t) :
    run (1 + n) s = run n t :=
  run_append (run_snoc (n := 0) rfl hin hpos hwf h)

/-- From any position of a BLOCK the engine comes to its ACC, all rounds done. -/
theorem run_stepsToAcc {s : State} (hin : s.hostInputs = []) {r : BlockRegs} {p : Pos}
    (h : ComputedAt s r p) :
    ∃ r', run (stepsToAcc p) (duringBlock s r p) = .next (duringBlock s r' .atAcc) ∧
      ComputedAt s r' .atAcc := by
  induction hn : stepsToAcc p generalizing r p with
  | zero =>
    by_cases hacc : p = .atAcc
    · subst hacc
      exact ⟨r, rfl, h⟩
    · obtain ⟨_, _, _, -, -, hsteps, -⟩ := exec_duringBlock h hacc
      omega
  | succ n ih =>
    have hacc : p ≠ .atAcc := by rintro rfl; cases hn
    obtain ⟨i, r', q, hi, hwf, hsteps, hexec, h'⟩ := exec_duringBlock h hacc
    rw [Nat.add_comm, run_one_add (s := duringBlock s r p) hin hi hwf hexec]
    exact ih h' (by omega)

/-- The engine at the end of the BLOCK that begins in `s`, before the advance to the next one: the
block is compressed into H (42_compress_engine.md R113). -/
def compressedBlock (s : State) (r : BlockRegs) : State :=
  (duringBlock s r .atAcc).setHash (compress s.H (currentBlock s))

/-- One BLOCK, from the delivery of its bytes to their accumulation. In B, W and a..h stands what
its operations left there. -/
theorem run_block {s : State} (hpos : s.pos = .atPad) (hin : s.hostInputs = []) :
    ∃ r, run 131 s = .next (compressedBlock s r).advanceBlock ∧ ComputedAt s r .atAcc := by
  have hs : duringBlock s ⟨s.B, s.W, s.v⟩ .atPad = s := by
    rw [duringBlock, ← hpos]
  obtain ⟨r, hrun, hB, hW, hv⟩ := run_stepsToAcc hin (r := ⟨s.B, s.W, s.v⟩) (p := .atPad) trivial
  have hacc : exec .acc (duringBlock s r .atAcc) = .next (compressedBlock s r).advanceBlock := by
    rw [exec_acc, compressedBlock, compress, ← hv]
    rfl
  rw [hs] at hrun
  exact ⟨r, run_snoc hrun hin rfl rfl hacc, hB, hW, hv⟩

/-- Settles O52: after the whole BLOCK only the advance to the next one has two cases. -/
theorem oneBlockIsOneCompression : Obligations.OneBlockIsOneCompression := by
  intro s hpos hin _ _
  obtain ⟨r, hrun, -⟩ := run_block hpos hin
  refine ⟨_, hrun, ?_⟩
  obtain ⟨hnext, e⟩ | ⟨hlast, e⟩ := (compressedBlock s r).advanceBlock_cases <;> rw [e]
  · have hnext : s.blk + 1 < blockCount s.msgLen := hnext
    exact ⟨rfl, rfl, rfl, rfl, rfl, hin, fun _ => ⟨rfl, rfl⟩, fun h => absurd h hnext.ne⟩
  · have hlast : blockCount s.msgLen ≤ s.blk + 1 := hlast
    exact ⟨rfl, rfl, rfl, rfl, rfl, hin, fun h => absurd h hlast.not_gt, fun _ => ⟨rfl, rfl⟩⟩

end Sys2Proof.Proofs.Compress

/-! Settles the statements about the hash accumulator's operations (43_hash_accumulator.md R120 to
R122), about the sequencer (R124, R134), and about the phase machine and the digest the host sees (R123,
R125, R131): what an operation does to position and block index is one table, and what a step does to
the phase one case split. -/

namespace Sys2Proof.Proofs.Accumulator

open Sys2Proof.Machine Sys2Proof.Safety Sys2Proof.Proofs.Encoding Sys2Proof.Proofs.MessageReads

/-! ## The operations -/

/-- Where a block follows, the engine advances to it. -/
theorem advanceBlock_of_next {s : State} (h : s.blk + 1 < s.blocks) :
    s.advanceBlock = { s with blk := s.blk + 1, pos := .atPad } := if_pos h

/-- After the last block the engine goes to FIN. -/
theorem advanceBlock_of_last {s : State} (h : ¬ s.blk + 1 < s.blocks) :
    s.advanceBlock = { s with pos := .atFin } := if_neg h

/-- Settles O11: INIT writes the table IV. -/
theorem initResult : Obligations.InitResult :=
  ⟨rfl, decode_encode (i := .init) rfl, fun s =>
    ⟨initialHash, exec_init s, rfl, rfl, rfl, rfl, rfl, rfl, rfl, rfl⟩⟩

/-- A lane of the sum is added modulo 2^32 (00_scope.md R12). -/
theorem addVars_getElem_toNat (H : Vector Word 8) (v : Vars) (i : Fin 8) :
    (addVars H v)[i].toNat = (H[i].toNat + (v.get i).toNat) % 2 ^ 32 := by
  simp [addVars, BitVec.toNat_add]

/-- Settles O17: ACC writes the sum, and the advance decides on the next block. -/
theorem accResult : Obligations.AccResult :=
  ⟨rfl, decode_encode (i := .acc) rfl, fun s => ⟨addVars s.H s.v,
    addVars_getElem_toNat s.H s.v, rfl, rfl, rfl, rfl, rfl, rfl, rfl, rfl,
    fun hnext => congrArg Host.Outcome.next
      (advanceBlock_of_next (s := s.setHash (addVars s.H s.v)) hnext),
    fun hlast => congrArg Host.Outcome.next
      (advanceBlock_of_last (s := s.setHash (addVars s.H s.v)) hlast)⟩⟩

/-- Byte `4 i + k` of the digest is byte `k` of word `i` (30_encoding.md R62). -/
theorem digestBytes_getElem (H : Vector Word 8) (i : Fin 8) (k : Fin 4) :
    (digestBytes H)[4 * i.val + k.val] = (bytes32 H[i])[k] := by
  have hi : (4 * i.val + k.val) / 4 = i.val := by omega
  have hk : (4 * i.val + k.val) % 4 = k.val := by omega
  simp [digestBytes, hi, hk]

/-- Settles O18: FIN writes the bytes of the hash state. -/
theorem finResult : Obligations.FinResult :=
  ⟨rfl, decode_encode (i := .fin) rfl, fun s => ⟨digestBytes s.H, exec_fin s, fun i k => by
    rw [digestBytes_getElem, bytes32_toNat]⟩⟩

/-! ## The sequencer (43_hash_accumulator.md R124, R134) -/

/-- An engine whose host is silent completes the operation of its position. -/
theorem exists_step_at_ofInstr {s : State} {i : Instr} (hsilent : HostSilent s)
    (hpos : s.pos = Pos.ofInstr i) (hwf : i.wellFormed = true) :
    ∃ t, exec i s.popInput = .next t ∧ step s = .next t := by
  obtain ⟨t, ht⟩ := exists_exec_eq_next hwf s.popInput
  exact ⟨t, ht, (step_at_ofInstr hsilent hpos hwf).trans ht⟩

/-- At WAIT an engine whose host does nothing any more is refused its step. -/
theorem step_at_wait {s : State} (hwait : s.pos = .wait) (hin : s.hostInputs = []) :
    step s = .refused .noEnabledStep := by
  have hturn : s.turn = .stuck := by
    simp only [State.turn, hin, State.engineTurn_eq, hwait]
  rw [step, hturn, Turn.run]

/-- Settles O8: every legal position but WAIT is that of an operation, which completes. -/
theorem engineStepIsAlwaysEnabled : Obligations.EngineStepIsAlwaysEnabled := by
  refine ⟨fun s hlegal hwait hsilent => ?_, fun s => step_at_wait⟩
  obtain ⟨i, hpos, hwf⟩ := exists_ofInstr_of_legal hlegal hwait
  obtain ⟨t, hexec, hstep⟩ := exists_step_at_ofInstr hsilent hpos hwf
  refine ⟨i, t, hpos, ?_, hexec, hstep⟩
  rw [hpos, opWord_ofInstr, Option.map_some, decode_encode hwf]

/-- The next table: position and block index after an operation in block `blk` of `N`. -/
def nextControl (blk N : Nat) : Instr → Pos × Nat
  | .init => (.atPad, 0)
  | .padblk => (.atLdw 0, blk)
  | .ldw j => (nextAfterLdw j, blk)
  | .exw j => (nextAfterExw j, blk)
  | .ldv => (.atRnd 0, blk)
  | .rnd j => (nextAfterRnd j, blk)
  | .acc => if blk + 1 < N then (.atPad, blk + 1) else (.atFin, blk)
  | .fin => (.wait, blk)

/-- Position and block index follow the next table, whatever the registers hold. -/
theorem exec_nextControl {i : Instr} {s t : State} (h : exec i s = .next t) :
    (t.pos, t.blk) = nextControl s.blk s.blocks i := by
  obtain ⟨rfl, rfl⟩ | ⟨rfl, rfl⟩ | ⟨rfl, rfl⟩ | ⟨rfl, rfl⟩ | ⟨rfl, rfl⟩ | ⟨j, hj, rfl, rfl⟩ |
    ⟨j, hj, rfl, rfl⟩ | ⟨j, rfl, rfl⟩ := exec_cases h
  · rfl -- INIT
  · rfl -- PADBLK
  · rfl -- LDV
  · -- ACC, the one operation with two next positions
    obtain ⟨hnext, e⟩ | ⟨hlast, e⟩ := (s.setHash (addVars s.H s.v)).advanceBlock_cases <;> rw [e]
    · exact (if_pos hnext).symm
    · exact (if_neg hlast.not_gt).symm
  · rfl -- FIN
  · rfl -- LDW
  · rfl -- EXW
  · rfl -- RND

/-- The step of an engine whose host is silent follows the next table. -/
theorem exists_step_nextControl {s : State} {i : Instr} (hsilent : HostSilent s)
    (hpos : s.pos = Pos.ofInstr i) (hwf : i.wellFormed = true) :
    ∃ t, step s = .next t ∧ (t.pos, t.blk) = nextControl s.blk s.blocks i ∧
      t.msgLen = s.msgLen := by
  obtain ⟨t, hexec, hstep⟩ := exists_step_at_ofInstr hsilent hpos hwf
  obtain ⟨-, -, -, hlen, -⟩ := Elements.exec_control_frame hexec
  exact ⟨t, hstep, exec_nextControl (s := s.popInput) hexec, hlen⟩

/-- The next table read at one position. -/
theorem exists_step_at {s : State} {i : Instr} {p : Pos} {n : Nat} (hsilent : HostSilent s)
    (hpos : s.pos = Pos.ofInstr i) (hwf : i.wellFormed = true)
    (hnext : nextControl s.blk s.blocks i = (p, n)) :
    ∃ t, step s = .next t ∧ t.pos = p ∧ t.blk = n := by
  obtain ⟨t, hstep, hcontrol, -⟩ := exists_step_nextControl hsilent hpos hwf
  obtain ⟨hp, hn⟩ := Prod.mk.inj (hcontrol.trans hnext)
  exact ⟨t, hstep, hp, hn⟩

/-- Settles O9: each clause is one row of the next table. -/
theorem sequencerFollowsTheNextTable : Obligations.SequencerFollowsTheNextTable := by
  intro s hs
  refine ⟨fun hp => ?_, fun hp => ?_, fun j hp hj => ?_, fun hp => ?_, fun j hp hlo hj => ?_,
    fun hp => ?_, fun hp => ?_, fun j hp hj => ?_, fun hp => ?_, fun hp hnext => ?_,
    fun hp hlast => ?_, fun hp => ?_, fun hp hin t => ?_⟩
  · exact exists_step_at (i := .init) hs hp rfl rfl
  · exact exists_step_at (i := .padblk) hs hp rfl rfl
  · obtain ⟨t, h, hpos, hblk⟩ := exists_step_at (i := .ldw j) hs hp (decide_eq_true (by omega)) rfl
    exact ⟨t, ⟨j.val + 1, by omega⟩, h, hpos.trans (dif_pos hj), rfl, hblk⟩
  · exact exists_step_at (i := .ldw 15) hs hp rfl rfl
  · obtain ⟨t, h, hpos, hblk⟩ := exists_step_at (i := .exw j) hs hp (decide_eq_true hlo) rfl
    exact ⟨t, ⟨j.val + 1, by omega⟩, h, hpos.trans (dif_pos hj), rfl, hblk⟩
  · exact exists_step_at (i := .exw 63) hs hp rfl rfl
  · exact exists_step_at (i := .ldv) hs hp rfl rfl
  · obtain ⟨t, h, hpos, hblk⟩ := exists_step_at (i := .rnd j) hs hp rfl rfl
    exact ⟨t, ⟨j.val + 1, by omega⟩, h, hpos.trans (dif_pos hj), rfl, hblk⟩
  · exact exists_step_at (i := .rnd 63) hs hp rfl rfl
  · exact exists_step_at (i := .acc) hs hp rfl (if_pos hnext)
  · exact exists_step_at (i := .acc) hs hp rfl (if_neg hlast.not_lt)
  · exact exists_step_at (i := .fin) hs hp rfl rfl
  · rw [step_at_wait hp hin]
    nofun

/-- Settles O10: the next table names no register. -/
theorem controlIgnoresData : Obligations.ControlIgnoresData := by
  intro s t s' hpos hblk hlen hs ht h
  obtain ⟨_, _, hin, -⟩ | ⟨_, _, _, hin, -⟩ | ⟨hwait, -⟩ | ⟨i, hi, hwf, hsilent, -, -⟩ :=
    step_cases h
  · rw [hs] at hin
    cases hin
  · rw [hs] at hin
    cases hin
  · rw [step_at_wait hwait hs] at h
    cases h
  · obtain ⟨_, hstep, hcontrol, hkeep⟩ := exists_step_nextControl hsilent hi hwf
    obtain rfl := Host.Outcome.next.inj (h.symm.trans hstep)
    obtain ⟨t', hstep', hcontrol', hkeep'⟩ :=
      exists_step_nextControl (hostSilent_of_nil ht) (hpos.symm.trans hi) hwf
    have hblocks : s.blocks = t.blocks := congrArg blockCount hlen
    obtain ⟨hp, hb⟩ := Prod.mk.inj (hcontrol.trans (by rw [hblk, hblocks, ← hcontrol']))
    exact ⟨t', hstep', hp, hb, by rw [hkeep, hkeep', hlen]⟩

/-! ## The phase machine and the host (43_hash_accumulator.md R123, R125, R131) -/

/-- In a call FIN is the one operation that leaves the engine in DONE. -/
theorem exec_done_iff {i : Instr} {s t : State} (hacc : s.phase = .accept)
    (h : exec i s = .next t) : t.phase = .done ↔ i = .fin := by
  refine ⟨Guard.eq_fin_of_exec_done hacc h, ?_⟩
  rintro rfl
  rw [exec_fin] at h
  obtain rfl := Host.Outcome.next.inj h
  rfl

/-- What a step can do to the phase: RESET and LAUNCH give ACCEPT, a step that is held keeps the
phase, and an operation is performed in ACCEPT and gives DONE exactly when it is FIN. -/
theorem step_phase {s t : State} (hc : ControlInv s) (h : step s = .next t) :
    (s.turn = .reset ∧ t.phase = .accept) ∨
    (∃ M, s.turn = .launch M ∧ s.pos = .wait ∧ t.phase = .accept) ∨
    (s.turn = .idle ∧ t.phase = s.phase) ∨
    (∃ i, s.turn = .perform i ∧ s.pos = Pos.ofInstr i ∧ s.phase = .accept ∧
      (t.phase = .done ↔ i = .fin)) := by
  obtain ⟨_, _, -, -, hturn, rfl⟩ | ⟨_, _, M, -, -, -, hturn, hl⟩ | ⟨-, -, hturn, rfl⟩ |
    ⟨i, hpos, -, -, hturn, he⟩ := step_cases h
  · exact .inl ⟨hturn, rfl⟩
  · obtain ⟨hwait, -, rfl⟩ := launch_eq_next_iff.mp hl
    exact .inr (.inl ⟨M, hturn, hwait, rfl⟩)
  · exact .inr (.inr (.inl ⟨hturn, rfl⟩))
  · have hacc : s.phase = .accept := hc.callAccepts (hpos ▸ ofInstr_ne_wait i)
    exact .inr (.inr (.inr ⟨i, hturn, hpos, hacc, exec_done_iff (s := s.popInput) hacc he⟩))

/-- Settles O45, by what a step can do to the phase. -/
theorem phaseMachineHasOneTransition : Obligations.PhaseMachineHasOneTransition := by
  intro s t hc h
  obtain ⟨hturn, hphase⟩ | ⟨M, hturn, hwait, hphase⟩ | ⟨hturn, hphase⟩ |
    ⟨i, hturn, hpos, hacc, hdone⟩ := step_phase hc h <;> rw [hturn]
  · exact ⟨fun _ => hphase, nofun, nofun, fun _ _ => .inl rfl,
      fun _ hd => nomatch hphase.symm.trans hd⟩
  · exact ⟨nofun, fun _ _ => ⟨hwait, hphase⟩, nofun, fun _ _ => .inr ⟨M, rfl⟩,
      fun _ hd => nomatch hphase.symm.trans hd⟩
  · exact ⟨nofun, nofun, nofun, fun hd ha => (nomatch ha.symm.trans (hphase.trans hd)),
      fun ha hd => nomatch ha.symm.trans (hphase.symm.trans hd)⟩
  · refine ⟨nofun, nofun, fun _ hi => ?_, fun hd => (nomatch hacc.symm.trans hd), fun _ hd => ?_⟩
    · cases hi
      exact ⟨hacc, hdone⟩
    · obtain rfl := hdone.mp hd
      exact ⟨rfl, hpos⟩

/-- In DONE a step in which the host does nothing holds the state (60_exceptions.md R152). -/
theorem step_silent_done {s t : State} (hc : ControlInv s) (hdone : s.phase = .done)
    (hsilent : HostSilent s) (h : step s = .next t) : t = s.popInput := by
  obtain ⟨input, _, hin, hreset, -⟩ | ⟨input, _, _, hin, -, hlaunch, -⟩ | ⟨-, -, -, rfl⟩ |
    ⟨i, hpos, -⟩ := step_cases h
  · obtain ⟨hnoReset, -⟩ := hsilent input (by rw [hin]; rfl)
    rw [hreset] at hnoReset
    cases hnoReset
  · obtain ⟨-, hnoLaunch⟩ := hsilent input (by rw [hin]; rfl)
    rw [hlaunch] at hnoLaunch
    cases hnoLaunch
  · rfl
  · exact absurd (hpos.symm.trans (hc.doneWaits hdone)) (ofInstr_ne_wait i)

/-- Settles O44: the read asks for DONE, where the engine is held until a LAUNCH leaves it. -/
theorem digestIsReadableAndStableWhileDone : Obligations.DigestIsReadableAndStableWhileDone := by
  refine ⟨fun s => rfl, fun s hd => if_pos (decide_eq_true hd),
    fun s hd => if_neg (by simp [State.done, hd]), fun s t => step_silent_done, fun M s t hl => ?_⟩
  obtain ⟨-, -, rfl⟩ := launch_eq_next_iff.mp hl
  rfl

/-- With a LAUNCH as the host's next input the step is that LAUNCH. -/
theorem step_of_launchInput {s : State} {M : List Byte} {rest : List HostInput}
    (hin : s.hostInputs = ⟨false, some M⟩ :: rest) : step s = launch M s.popInput := by
  have hturn : s.turn = .launch M := by simp [State.turn, hin]
  rw [step, hturn, Turn.run]

/-- Settles O39: the LAUNCH stores the message so that it reads back byte by byte. -/
theorem launchStartsACall : Obligations.LaunchStartsACall := by
  intro M s rest hpos hL hin
  refine ⟨Memory.ofBytes M, ?_, fun p hp => ?_⟩
  · have hl := launch_eq_next_iff (s := s.popInput).mpr ⟨hpos, hL, rfl⟩
    rw [step_of_launchInput hin, hl, State.popInput, hin, List.tail_cons]
  · rw [Memory.read_ofBytes, List.getD_eq_getElem _ _ hp, List.getElem?_eq_getElem hp]

end Sys2Proof.Proofs.Accumulator

/-! Settles the statements about a whole call (43_hash_accumulator.md R126, R127, R130, R135): block by
block the hash state grows, the last block and FIN leave one and the same state whatever the call
began in, and before that no step leaves the call. -/

namespace Sys2Proof.Proofs.Call

open Sys2Proof.Machine Sys2Proof.Safety Sys2Proof.Proofs.Accumulator Sys2Proof.Proofs.Compress
open Sys2Proof.Proofs.MessageReads

/-! ## Block by block -/

/-- The engine is about to deliver block `i` of a call of `M` that the host leaves alone, the blocks
before it compressed into H. -/
structure AtBlock (M : List Byte) (i : Nat) (s : State) : Prop where
  pos : s.pos = .atPad
  blk : s.blk = i
  hash : s.H = hashAfter M i
  msg : s.msg = Memory.ofBytes M
  msgLen : s.msgLen = M.length
  silent : s.hostInputs = []

section

variable {M : List Byte} {i : Nat} {s : State}

theorem AtBlock.currentBlock_eq (h : AtBlock M i s) : currentBlock s = block M i := by
  rw [currentBlock, State.message_of_launched h.msg h.msgLen, h.blk]

theorem AtBlock.compress_eq (h : AtBlock M i s) :
    compress s.H (currentBlock s) = hashAfter M (i + 1) := by
  rw [h.hash, h.currentBlock_eq, hashAfter]

/-- INIT leads from the launch to the first block. -/
theorem run_one_of_launch {s0 : State} (hin : s.hostInputs = []) (hl : launch M s = .next s0) :
    ∃ t, run 1 s0 = .next t ∧ AtBlock M 0 t := by
  obtain ⟨-, -, rfl⟩ := launch_eq_next_iff.mp hl
  exact ⟨_, run_snoc (n := 0) rfl hin rfl rfl (exec_init _), rfl, rfl, rfl, rfl, rfl, hin⟩

/-- A BLOCK that is not the last one leads to the next one. -/
theorem AtBlock.run_next (h : AtBlock M i s) (hi : i + 1 < blockCount M.length) :
    ∃ t, run 131 s = .next t ∧ AtBlock M (i + 1) t := by
  obtain ⟨r, hrun, -⟩ := run_block h.pos h.silent
  have hnext : (compressedBlock s r).blk + 1 < (compressedBlock s r).blocks := by
    change s.blk + 1 < blockCount s.msgLen
    rwa [h.blk, h.msgLen]
  rw [advanceBlock_of_next hnext] at hrun
  exact ⟨_, hrun, rfl, congrArg (· + 1) h.blk, h.compress_eq, h.msg, h.msgLen, h.silent⟩

/-- After `1 + 131 i` steps the call is at its block `i` (43_hash_accumulator.md R127). -/
theorem run_to_block {s0 : State} (hin : s.hostInputs = []) (hl : launch M s = .next s0)
    (hi : i < blockCount M.length) : ∃ t, run (1 + 131 * i) s0 = .next t ∧ AtBlock M i t := by
  induction i with
  | zero => exact run_one_of_launch hin hl
  | succ i ih =>
    obtain ⟨t, hrun, ht⟩ := ih (Nat.lt_of_succ_lt hi)
    obtain ⟨u, hrun', hu⟩ := ht.run_next hi
    exact ⟨u, (run_append hrun).trans hrun', hu⟩

/-! ## The end of the call -/

/-- What a call of `M` leaves: the result, and in B, W and a..h the leftovers of the last block. The
state before the LAUNCH is not in it (43_hash_accumulator.md R130). -/
def callResult (M : List Byte) : State where
  H := hashAfter M (blockCount M.length)
  v :=
    rounds (Vars.ofHash (hashAfter M (blockCount M.length - 1)))
      (schedule (block M (blockCount M.length - 1)))
  W := schedule (block M (blockCount M.length - 1))
  B := block M (blockCount M.length - 1)
  DG := sha256 M
  phase := .done
  pos := .wait
  blk := blockCount M.length - 1
  msg := Memory.ofBytes M
  msgLen := M.length
  hostInputs := []

/-- The same before FIN, which is still to write DG and the phase. -/
def beforeFin (M : List Byte) (DG : Vector Byte 32) (phase : Phase) : State :=
  { callResult M with DG := DG, phase := phase, pos := .atFin }

/-- FIN writes the digest (43_hash_accumulator.md R122, R126). -/
theorem exec_fin_beforeFin (DG : Vector Byte 32) (phase : Phase) :
    exec .fin (beforeFin M DG phase) = .next (callResult M) := exec_fin _

/-- The last BLOCK leads to FIN; only what FIN writes is still as it was before the block. -/
theorem AtBlock.run_last (h : AtBlock M i s) (hi : i + 1 = blockCount M.length) :
    run 131 s = .next (beforeFin M s.DG s.phase) := by
  obtain ⟨r, hrun, hB, hW, hv⟩ := run_block h.pos h.silent
  have hlast : ¬ (compressedBlock s r).blk + 1 < (compressedBlock s r).blocks := by
    change ¬ s.blk + 1 < blockCount s.msgLen
    rw [h.blk, h.msgLen, hi]
    exact lt_irrefl _
  rw [hrun, advanceBlock_of_last hlast]
  simp only [compressedBlock, duringBlock, State.setHash, beforeFin, callResult, ← hi,
    Nat.add_sub_cancel, hashAfter, hB, hW, hv, h.currentBlock_eq, h.hash, h.blk, h.msg, h.msgLen,
    h.silent]

/-- After all blocks FIN is the one operation left. -/
theorem run_to_fin {s0 : State} (hin : s.hostInputs = []) (hl : launch M s = .next s0) :
    ∃ DG phase, run (1 + 131 * blockCount M.length) s0 = .next (beforeFin M DG phase) := by
  obtain ⟨t, hrun, ht⟩ :=
    run_to_block (i := blockCount M.length - 1) hin hl (Nat.sub_lt (Nat.succ_pos _) Nat.one_pos)
  have hN : blockCount M.length - 1 + 1 = blockCount M.length := Nat.sub_add_cancel (Nat.succ_pos _)
  refine ⟨t.DG, t.phase, ?_⟩
  rw [← ht.run_last hN, ← run_append hrun, Nat.add_assoc, ← Nat.mul_succ, Nat.succ_eq_add_one, hN]

/-- The whole call: whatever it began in, it ends in the one state. -/
theorem run_call {s0 : State} (hin : s.hostInputs = []) (hl : launch M s = .next s0) :
    run (2 + 131 * blockCount M.length) s0 = .next (callResult M) := by
  obtain ⟨DG, phase, hrun⟩ := run_to_fin hin hl
  have h := run_snoc hrun rfl rfl rfl (exec_fin_beforeFin DG phase)
  rwa [Nat.add_right_comm] at h

end

/-- Settles O53: the three kinds of common points are the blocks' beginnings, FIN and the end. -/
theorem callComputesTheDigest : Obligations.CallComputesTheDigest := by
  intro M s hL hpos hin
  have hl := launch_eq_next_iff.mpr ⟨hpos, hL, rfl⟩
  refine ⟨_, hl, fun i hi => ?_, ?_, ?_⟩
  · obtain ⟨t, hrun, ht⟩ := run_to_block hin hl hi
    exact ⟨t, hrun, ht.pos, ht.blk, ht.hash⟩
  · obtain ⟨_, _, hrun⟩ := run_to_fin hin hl
    exact ⟨_, hrun, rfl, rfl⟩
  · exact ⟨_, run_call hin hl, rfl, rfl, rfl, rfl, rfl⟩

/-- Settles O54: both calls end in the state that depends on the message alone. -/
theorem callLeavesNoResidue : Obligations.CallLeavesNoResidue := by
  intro M s t s0 t0 hs ht hls hlt
  exact ⟨callResult M, block M (blockCount M.length - 1), run_call hs hls, run_call ht hlt,
    rfl, rfl, rfl, rfl, rfl, rfl, rfl, rfl, rfl⟩

/-! ## Before the end of the call -/

/-- While steps are left in a call, the engine is not at WAIT. -/
theorem ne_wait_of_lt_stepsLeft {n : Nat} {s : State} (h : n < stepsLeft s) : s.pos ≠ .wait :=
  fun hwait => (Nat.zero_lt_of_lt h).ne' (stepsLeft_eq_zero_iff.mpr hwait)

/-- An operation enters DONE only together with WAIT. -/
theorem step_keeps_accept {i : Instr} {s t : State} (hturn : s.turn = .perform i)
    (hstep : step s = .next t) (hacc : s.phase = .accept) (hwait : t.pos ≠ .wait) :
    t.phase = .accept := by
  have hexec : exec i s.popInput = .next t := by
    rw [← hstep, step, hturn]
    rfl
  cases hphase : t.phase with
  | accept => rfl
  | done =>
    obtain rfl := (exec_done_iff (s := s.popInput) hacc hexec).mp hphase
    rw [exec_fin] at hexec
    obtain rfl := Host.Outcome.next.inj hexec
    exact absurd rfl hwait

/-- While steps are left in a call, it is running and the engine accepts. -/
theorem run_lt_stepsLeft {n : Nat} {s : State} (hs : Undisturbed s) (hacc : s.phase = .accept)
    (hn : n < stepsLeft s) : ∃ t, run n s = .next t ∧ t.pos ≠ .wait ∧ t.phase = .accept := by
  have hwait := ne_wait_of_lt_stepsLeft hn
  induction n generalizing s with
  | zero => exact ⟨s, rfl, hwait, hacc⟩
  | succ n ih =>
    obtain ⟨i, t, hturn, hstep, ht, hsteps, -⟩ := step_progress hs hwait
    have hleft : n < stepsLeft t := by omega
    have hwait' := ne_wait_of_lt_stepsLeft hleft
    have hrun : run (n + 1) s = run n t := by simp only [run, hstep]
    rw [hrun]
    exact ih ht (step_keeps_accept hturn hstep hacc hwait') hleft hwait'

/-- Settles O57: before the last step some are left, after it none is. -/
theorem callIsOverOnlyAtItsEnd : Obligations.CallIsOverOnlyAtItsEnd := by
  intro M s s0 hin hl
  obtain ⟨hund, hleft, -⟩ := launch_allLeft hin hl
  have hacc : s0.phase = .accept := by
    obtain ⟨-, -, rfl⟩ := launch_eq_next_iff.mp hl
    rfl
  refine ⟨fun n hn => ?_, _, run_call hin hl, rfl, rfl⟩
  obtain ⟨t, hrun, hwait, hphase⟩ := run_lt_stepsLeft hund hacc (hleft ▸ hn)
  exact ⟨t, hrun, hwait, hphase, by simp [State.done, hphase]⟩

end Sys2Proof.Proofs.Call

/-! Settles the statements about the LAUNCHes that give no next state (60_exceptions.md R141, R153):
such a step is the LAUNCH itself, and LAUNCH asks first for WAIT and then for a legal length. -/

namespace Sys2Proof.Proofs.Exceptions

open Sys2Proof.Machine Sys2Proof.Proofs.Accumulator

/-- Away from WAIT a LAUNCH is refused, whatever the message's length. -/
theorem launch_eq_launchWhileRunning {s : State} (hpos : s.pos ≠ .wait) (M : List Byte) :
    launch M s = .refused .launchWhileRunning := if_pos hpos

/-- At WAIT a LAUNCH of a message longer than the largest legal length is refused. -/
theorem launch_eq_lengthOutOfRange {M : List Byte} {s : State} (hpos : s.pos = .wait)
    (hL : Config.maxLenBytes < M.length) : launch M s = .refused .lengthOutOfRange := by
  rw [launch, if_neg (not_not_intro hpos), if_pos hL]

/-- Settles O40: 2^61 is the first length above the largest legal one. -/
theorem overlongLaunchIsRefused : Obligations.OverlongLaunchIsRefused := by
  intro M s rest hpos hL hin
  have hlong : Config.maxLenBytes < M.length := by unfold Config.maxLenBytes; omega
  rw [step_of_launchInput hin]
  exact launch_eq_lengthOutOfRange (s := s.popInput) hpos hlong

/-- Settles O41: taking the host's input leaves the position, so LAUNCH meets a running call. -/
theorem launchDuringACallIsRefused : Obligations.LaunchDuringACallIsRefused := by
  intro M s rest hpos hin
  rw [step_of_launchInput hin]
  exact launch_eq_launchWhileRunning (s := s.popInput) hpos M

end Sys2Proof.Proofs.Exceptions

/-! Settles the statement about RESET (70_reset_and_hazards.md R160; 60_exceptions.md R143): the step
is the RESET whatever else is in its input, and the reset state has the values the spec gives it. -/

namespace Sys2Proof.Proofs.Reset

open Sys2Proof.Machine Sys2Proof.Safety Sys2Proof.Proofs.Accumulator

/-- With RESET in the host's next input the step is that RESET: neither the state nor a coinciding
LAUNCH is asked. -/
theorem step_of_resetInput {s : State} {input : HostInput} {rest : List HostInput}
    (hin : s.hostInputs = input :: rest) (hreset : input.reset = true) :
    step s = .next (resetWith rest) := by
  have hturn : s.turn = .reset := by simp only [State.turn, hin, hreset, if_true]
  rw [step, hturn, Turn.run, State.applyReset, State.popInput_hostInputs, hin, List.tail_cons,
    resetWith]

/-- The reset state's H is the initial hash value (10_state.md R34). -/
theorem resetWith_H_get (inputs : List HostInput) (i : Fin 8) : (resetWith inputs).H[i] = IV i :=
  Vector.getElem_ofFn i.isLt

/-- The reset state is in ACCEPT, where the host's read of the digest is refused. -/
theorem resetWith_readDigest (inputs : List HostInput) :
    (resetWith inputs).readDigest = .error .digestNotReady := by
  obtain ⟨-, -, hrefused, -⟩ := digestIsReadableAndStableWhileDone
  exact hrefused (resetWith inputs) nofun

/-- Settles O42: the step's turn asks for RESET first, and RESET keeps only the inputs to come. -/
theorem resetWinsInEveryState : Obligations.ResetWinsInEveryState := fun _ _ rest hin hreset =>
  ⟨step_of_resetInput hin hreset, resetWith_H_get rest, rfl, rfl, rfl, rfl,
    resetWith_readDigest rest⟩

end Sys2Proof.Proofs.Reset
